-- ==== Sys2Proof/Word.lean ====
section
/-! DEFINITION. The word types of `WNSR-CORE`: bytes, byte strings, 16-bit values (00_scope.md section 5). -/

namespace Sys2Proof

/-- A byte, an unsigned integer in 0..255 (00_scope.md section 5). -/
abbrev Byte := BitVec 8

/-- A byte string, indexed from 0 (00_scope.md section 5). -/
abbrev Bytes := List Byte

/-- An unsigned 16-bit value: the CRC register and its working value (R92, R94). -/
abbrev U16 := BitVec 16

/-- A character string (R195, R198). It is held as its list of characters. -/
abbrev Text := List Char

end Sys2Proof
end

