-- ==== Sys2Proof/Config.lean ====
section
/-! DEFINITION. The configuration record `cfg` (R7), and the reference configurations of 95_test_vectors.md.
The spec gives no behaviour any free value (93_implementation_defined.md section 1, last line), so this file holds no
opaque constant. -/

namespace Sys2Proof

/-- A profile: `WN`, `KN`, or an unsupported value (R7, R194).
The unsupported value keeps the byte by which a command names it (R68: byte 0 is WN, byte 1 is KN). -/
inductive Profile where
  | wn
  | kn
  | unsupported (code : Byte)
  deriving DecidableEq, Repr

/-- The configuration record of R7, one field a row of its table.
`HOST` owns it; the block only reads it. -/
structure Cfg where
  /-- `FRAME_LEN`: expected total length in bytes of one telegram, flags included. -/
  frameLen : Nat
  /-- `ST_OFF`: index in the frame of the first byte of the 8-byte systemTitle. -/
  stOff : Nat
  /-- `IC_OFF`: index in the frame of the first byte of the 4-byte invocation counter. -/
  icOff : Nat
  /-- `CT_OFF`: index in the frame of the first byte of the ciphertext. -/
  ctOff : Nat
  /-- `KEY`: the AES key, raw bytes. -/
  key : Bytes
  /-- `PROFILE`: host side only. -/
  profile : Profile
  deriving DecidableEq, Repr

/-- The 16-byte key `00 01 .. 0f` of both reference configurations (95_test_vectors.md). -/
def Cfg.refKey : Bytes := (List.range 16).map (BitVec.ofNat 8)

/-- The configuration `WNREF` of 95_test_vectors.md and R61: PRESUMED, the spec marks its numbers as general knowledge and
not normative. `State.reset` holds it (log entry 1). -/
def Cfg.wnref : Cfg :=
  { frameLen := 105, stOff := 14, icOff := 24, ctOff := 28, key := Cfg.refKey, profile := .wn }

/-- The configuration `SMALL` of 95_test_vectors.md: the smallest layout with no gaps and a 7-byte ciphertext. -/
def Cfg.small : Cfg :=
  { frameLen := 24, stOff := 2, icOff := 10, ctOff := 14, key := Cfg.refKey, profile := .wn }

end Sys2Proof
end

