-- ==== Sys2Proof/Syntax.lean ====
section
/-! DEFINITION. The operation set, version 1 (R9), one constructor a row of spec/opcode_table.json.
The operands are those of the ABSTRACT operations: byte strings of any length, naturals, integers (R67, last paragraph);
what a command can carry of them is Sys2Proof/WellFormed.lean. -/

namespace Sys2Proof

/-- An operation of R9 with its operands, in the textual order of R9. -/
inductive Instr where
  /-- `RESET` (R161). -/
  | reset
  /-- `RX b` (R163). -/
  | rx (b : Byte)
  /-- `MIRROR b` (R91). -/
  | mirror (b : Byte)
  /-- `CRC16 data` (R97). -/
  | crc16 (data : Bytes)
  /-- `VERIFY input, skip, tl, cut` (R99). -/
  | verify (input : Bytes) (skip tl cut : Nat)
  /-- `DECRYPT key, frame` (R147). -/
  | decrypt (key frame : Bytes)
  /-- `PDECODE profile, off, plaintext` (R194), a host function. -/
  | pdecode (profile : Profile) (off : Int) (plaintext : Bytes)
  /-- `TSNORM year, month, day, hour, minute, second, off` (R198), a host function. -/
  | tsnorm (year month day hour minute second : Nat) (off : Int)
  deriving DecidableEq, Repr

end Sys2Proof
end

