-- ==== Sys2Proof/WellFormed.lean ====
section
/-! DEFINITION. Which operations a command can carry: every operand in the range of its type in R67 and R68. -/

namespace Sys2Proof

/-- A natural that a `u8` operand carries (R67). -/
abbrev fitsU8 (n : Nat) : Prop := n < 2 ^ 8

/-- A natural that a `u16` operand carries (R67). -/
abbrev fitsU16 (n : Nat) : Prop := n < 2 ^ 16

/-- An integer that an `s8` operand carries, -128..127 (R67). -/
abbrev fitsS8 (z : Int) : Prop := -128 ≤ z ∧ z < 128

/-- A byte string that a `bytes` operand carries: its length is a `u16` (R67). -/
abbrev fitsBytes (bs : Bytes) : Prop := fitsU16 bs.length

/-- The profile byte is 0 for WN and 1 for KN, so an unsupported profile is named by another byte (R68). -/
abbrev Profile.wellFormed : Profile → Prop
  | .wn => True
  | .kn => True
  | .unsupported code => 2 ≤ code.toNat

/-- Every operand of the operation is in the range of its operand type in R68. -/
abbrev Instr.wellFormed : Instr → Prop
  | .reset => True
  | .rx _ => True
  | .mirror _ => True
  | .crc16 data => fitsBytes data
  | .verify input skip tl cut => fitsU16 skip ∧ fitsU16 tl ∧ fitsU16 cut ∧ fitsBytes input
  | .decrypt key frame => fitsBytes key ∧ fitsBytes frame
  | .pdecode profile off plaintext => profile.wellFormed ∧ fitsS8 off ∧ fitsBytes plaintext
  | .tsnorm year month day hour minute second off =>
    fitsU16 year ∧ fitsU8 month ∧ fitsU8 day ∧ fitsU8 hour ∧ fitsU8 minute ∧ fitsU8 second ∧ fitsS8 off

end Sys2Proof
end

