-- ==== Sys2Proof/Machine/Operands.lean ====
section
/-! DEFINITION. Every operand form of the block: the operand types of a command and their serialisation (R67), byte-order
helpers (R43, R72), slices and their bounds (00_scope.md section 5, R47). -/

namespace Sys2Proof

/-- The slice `s[a:b]`: the bytes with indices `a <= i < b` (00_scope.md section 5).
Every rule that takes a slice has first established that its bounds are in range (R47). -/
def slice (s : Bytes) (a b : Nat) : Bytes := (s.take b).drop a

/-- `be16(v)`: the two bytes of a 16-bit number, the more significant first (00_scope.md section 5).
A natural is serialised modulo `2 ^ 16`. -/
def be16 (n : Nat) : Bytes := [BitVec.ofNat 8 (n / 256), BitVec.ofNat 8 n]

/-- `be32(v)`: the four bytes of a 32-bit number, the most significant first (00_scope.md section 5). -/
def be32 (n : Nat) : Bytes :=
  [BitVec.ofNat 8 (n / 256 ^ 3), BitVec.ofNat 8 (n / 256 ^ 2), BitVec.ofNat 8 (n / 256), BitVec.ofNat 8 n]

/-- `ube(s)`: the big-endian unsigned value of a byte string (R191). -/
def ube (s : Bytes) : Nat := s.foldl (fun v x => v * 256 + x.toNat) 0

/-- The integer of an `s8` operand: `b` when `b < 128` and `b - 256` otherwise (R67). -/
def s8Value (b : Byte) : Int := if b.toNat < 128 then b.toNat else (b.toNat : Int) - 256

/-- The byte of an `s8` operand, two's complement (R67). -/
def s8Byte (z : Int) : Byte := BitVec.ofInt 8 z

/-- The profile a command's `profile` byte names (R68): 0 is WN, 1 is KN, every other value is unsupported. -/
def Profile.ofByte (b : Byte) : Profile :=
  if b = 0 then .wn else if b = 1 then .kn else .unsupported b

/-- The `profile` byte of a command (R68). -/
def Profile.toByte : Profile → Byte
  | .wn => 0
  | .kn => 1
  | .unsupported code => code

/-- The operand types of R67. -/
inductive OperandType where
  | u8
  | s8
  | u16
  | bytes
  deriving DecidableEq, Repr

/-- An operand as a command carries it: a value of one of the types of R67. -/
inductive Operand where
  | u8 (n : Nat)
  | s8 (z : Int)
  | u16 (n : Nat)
  | bytes (bs : Bytes)
  deriving DecidableEq, Repr

/-- The serialisation of one operand (R67). -/
def Operand.encode : Operand → Bytes
  | .u8 n => [BitVec.ofNat 8 n]
  | .s8 z => [s8Byte z]
  | .u16 n => be16 n
  | .bytes bs => be16 bs.length ++ bs

/-- The type of an operand (R67). -/
def Operand.type : Operand → OperandType
  | .u8 _ => .u8
  | .s8 _ => .s8
  | .u16 _ => .u16
  | .bytes _ => .bytes

/-- The operand is in the range of its type (R67). -/
abbrev Operand.fits : Operand → Prop
  | .u8 n => fitsU8 n
  | .s8 z => fitsS8 z
  | .u16 n => fitsU16 n
  | .bytes bs => fitsBytes bs

/-- Read one operand of the given type from the front of a byte string (R67, R70): the operand and the bytes after it,
or `none` when the bytes end before the operand is complete (R69). -/
def OperandType.decode : OperandType → Bytes → Option (Operand × Bytes)
  | .u8, b :: rest => some (.u8 b.toNat, rest)
  | .s8, b :: rest => some (.s8 (s8Value b), rest)
  | .u16, b0 :: b1 :: rest => some (.u16 (b0.toNat * 256 + b1.toNat), rest)
  | .bytes, b0 :: b1 :: rest =>
    let n := b0.toNat * 256 + b1.toNat
    if n ≤ rest.length then some (.bytes (rest.take n), rest.drop n) else none
  | _, _ => none

/-- Read the listed operands, in order, with nothing between them (R66). -/
def decodeOperands : List OperandType → Bytes → Option (List Operand × Bytes)
  | [], bs => some ([], bs)
  | t :: ts, bs =>
    match t.decode bs with
    | none => none
    | some (o, rest) =>
      match decodeOperands ts rest with
      | none => none
      | some (os, rest') => some (o :: os, rest')

/-- The serialisation of a list of operands, in order, with nothing between them (R66). -/
def encodeOperands (os : List Operand) : Bytes := os.flatMap Operand.encode

/-- The number of bytes one operand takes at the front of a byte string that is continued by zeros (R70): `u8` and `s8`
take 1, `u16` takes 2, and `bytes` takes 2 plus the length that its first two bytes give. -/
def OperandType.length : OperandType → Bytes → Nat
  | .u8, _ => 1
  | .s8, _ => 1
  | .u16, _ => 2
  | .bytes, bs => 2 + ((bs.getD 0 0).toNat * 256 + (bs.getD 1 0).toNat)

/-- The number of bytes a list of operands takes at the front of a byte string that is continued by zeros (R70). -/
def operandsLength : List OperandType → Bytes → Nat
  | [], _ => 0
  | t :: ts, bs => t.length bs + operandsLength ts (bs.drop (t.length bs))

end Sys2Proof
end

