-- ==== Sys2Proof/Machine/State.lean ====
section
/-! DEFINITION. The state of `WNSR-CORE` as plain data (R20 to R30), the outcomes of an operation (R10), and the state right
after reset (R30, R240). -/

namespace Sys2Proof.Machine

open Sys2Proof

/-- The two modes of the framer (R21). -/
inductive Mode where
  | idle
  | collecting
  deriving DecidableEq, Repr

/-- The frame buffer `st.buf` as a memory (R22, R40): the cells that hold a byte, by rising address.
An unlisted address holds no byte of the telegram being collected (log entry 10). -/
abbrev Memory := List Host.Cell

/-- The canonical form of the frame buffer: a byte string is indexed from 0 without a gap (00_scope.md section 5), so the
listed addresses are exactly 0, 1, .., one cell each, and equal byte strings are equal memories. -/
abbrev Memory.wf (m : Memory) : Prop := m.map Prod.fst = List.range m.length

/-- The three failure kinds (R210). -/
inductive Failure where
  /-- `ChecksumError`, raised by the dispatch inside `RX` only. -/
  | checksumError
  /-- `UnsupportedProfileError`, raised by `PDECODE` only. -/
  | unsupportedProfileError
  /-- `MalformedFrameError`, raised by `VERIFY`, `DECRYPT` and `PDECODE`. -/
  | malformedFrameError
  deriving DecidableEq, Repr

/-- The reasons for which an operation is turned away (R219).
They are outcomes of the operation, recorded in `State.trace`; the machine goes on (log entry 6). -/
inductive Reason where
  /-- The command does not decode (R69). -/
  | illegalCommand
  /-- R8 does not hold, or `cfg` is not the one of the last `RESET` (R50, D11). -/
  | configInvalid
  /-- `tl != 2` (R98). -/
  | badTrailerLength
  /-- The key has a length other than 16, 24 and 32 (R146). -/
  | badKeyLength
  /-- `verify(frame, 1, 2, 1)` is not true (R148). -/
  | unverified
  /-- A counter block beyond `0xFFFFFFFF` would be needed (R143). -/
  | counterWrap
  deriving DecidableEq, Repr

/-- A Reading: nine fields in the order of R199.
`none` is the marker `absent` of R192, `some v` a present field. -/
structure Reading where
  aInWh : Option Nat
  aOutWh : Option Nat
  rInVarh : Option Nat
  rOutVarh : Option Nat
  pInW : Option Nat
  pOutW : Option Nat
  qInVar : Option Nat
  qOutVar : Option Nat
  timestamp : Text
  deriving DecidableEq, Repr

/-- The value of a pure operation (R9, column "result"). -/
inductive Value where
  /-- `MIRROR`. -/
  | byte (b : Byte)
  /-- `CRC16`. -/
  | word (v : U16)
  /-- `VERIFY`. -/
  | bool (b : Bool)
  /-- `DECRYPT`. -/
  | bytes (bs : Bytes)
  /-- `PDECODE`. -/
  | reading (r : Reading)
  /-- `TSNORM`. -/
  | text (t : Text)
  deriving DecidableEq, Repr

/-- The events (R215), and the host's `READING(r)` of the composition `RXP` (R200). -/
inductive Event where
  /-- `DECODED(pt)`: a telegram passed the CRC and was decrypted. -/
  | decoded (pt : Bytes)
  /-- `FAIL(kind)`: a telegram was discarded. -/
  | fail (kind : Failure)
  /-- `READING(r)`: host side, only from `RXP` (R200). -/
  | reading (r : Reading)
  deriving DecidableEq, Repr

/-- The outcome of an operation: exactly one, of one of the kinds of R10.
(`Host.Outcome` is the outcome of a machine STEP.) -/
inductive OpOutcome where
  /-- The outcome `none` of `RESET` and of an `RX` that completes no frame. -/
  | none
  | value (v : Value)
  | event (e : Event)
  | failure (k : Failure)
  | refusal (r : Reason)
  deriving DecidableEq, Repr

/-- What the agents outside do to the block (R6, R242): issue an operation, as its command's bytes (R66), or, `HOST` only,
supply a configuration record. -/
inductive Input where
  | command (bytes : Bytes)
  | configure (cfg : Cfg)
  deriving DecidableEq, Repr

/-- The whole state of the machine.
`mode`, `buf`, `pos`, `prev` are the architectural state of R20.
`cfg` is the parameter of R7, and `session` the configuration that R50 and R219 compare it with.
`inputs` and `trace` are the model's own: what is still to be taken from outside, and what a claim observes (R11). -/
structure State where
  /-- `st.mode` (R21). -/
  mode : Mode
  /-- `st.buf`, the frame buffer (R22, R40). -/
  buf : Memory
  /-- `st.pos`, the count of bytes in the buffer (R23). -/
  pos : Nat
  /-- `st.prev`, the byte of the most recent `RX` since the last `RESET`, if any (R24). -/
  prev : Option Byte
  /-- `cfg`, the configuration `HOST` supplies now (R7). -/
  cfg : Cfg
  /-- The configuration the session is held to (R50, R219): that of the last `RESET`, and in a session created without one
  that of its first accepted `RX`.
  `none` is "no `RESET` and no accepted `RX` yet" (R240, R242; log entry 2). -/
  session : Option Cfg
  /-- The model's own: the operations issued and the configurations supplied but not yet taken, oldest first
  (log entry 5). -/
  inputs : List Input
  /-- The model's own: the outcomes of the operations so far, oldest first (R11; log entry 4). -/
  trace : List OpOutcome
  deriving DecidableEq, Repr

/-- What stops the machine with a fault: nothing.
The block has no processor-style traps (60_exceptions.md); its failures are outcomes after which it goes on
(R217, R218), so this type has no constructor (log entry 7). -/
inductive Fault where
  deriving DecidableEq, Repr

/-- What stops the machine without a meaning. -/
inductive Refusal where
  /-- Raised by `exec` for an operation that has no meaning yet; safe, since nothing is claimed of it.
  Every operation has its meaning, so no arm raises it. -/
  | notModelled (mnemonic : String)
  deriving DecidableEq, Repr

/-- The machine right after reset (R30, R240): a session has just been created, and is held to no configuration yet.
The configuration has no reset value (R30): `WNREF` stands for what `HOST` supplied (PRESUMED, log entry 1).
Nothing has been issued yet and nothing observed. -/
def State.reset : State :=
  { mode := .idle, buf := [], pos := 0, prev := none, cfg := Cfg.wnref, session := none, inputs := [], trace := [] }

end Sys2Proof.Machine
end

