-- ==== Sys2Proof/Machine/Ops.lean ====
section
/-! DEFINITION. The named operations over the frame buffer and the state: reading, appending, answering with an outcome,
failing, turning an operation away, the self-reset after a dispatch. -/

namespace Sys2Proof.Machine

open Sys2Proof

/-! ### The frame buffer -/

/-- The byte at an address of the buffer, `st.buf[addr]`; `none` where the buffer holds no byte (R40, R48). -/
def Memory.read : Memory → Nat → Option Byte
  | [], _ => none
  | (a, b) :: m, addr => if a = addr then some b else Memory.read m addr

/-- The buffer as a byte string, lowest address first (R22, R42). -/
def Memory.bytes (m : Memory) : Bytes := m.map Prod.snd

/-- `MemRead(addr, n)`: `st.buf[addr : addr + n]`, lowest index first (00_scope.md section 5). -/
def Memory.readRange (m : Memory) (addr n : Nat) : Bytes := slice m.bytes addr (addr + n)

/-- `st.buf ++ [b]`, the only write the block performs: `MemWrite(st.pos, 1, [b])` with `st.pos = len(st.buf)`
(00_scope.md section 5, R163). -/
def Memory.append (m : Memory) (b : Byte) : Memory := m ++ [(m.length, b)]

/-- The buffer that holds a byte string (R42). -/
def Memory.ofBytes (bs : Bytes) : Memory := bs.foldl Memory.append []

/-! ### Outcomes -/

/-- What a function of the block returns: a result, `raise K`, or `refuse(reason)` (00_scope.md section 5). -/
inductive Answer (α : Type) where
  | result (a : α)
  | raise (k : Failure)
  | refuse (r : Reason)
  deriving DecidableEq, Repr

/-- The operation ends with this outcome: one outcome an operation, in the order of issue (R10, R11). -/
def State.answer (s : State) (o : OpOutcome) : State := { s with trace := s.trace ++ [o] }

/-- Taking a failure in an operation (R217): nothing is saved, no mode or mask changes, control goes nowhere; the failure
is the outcome.
There is no return from it, because there is nothing to return from (R218). -/
def State.raise (s : State) (k : Failure) : State := s.answer (.failure k)

/-- An operation is turned away (R219): it changes nothing and produces no event; its outcome is the refusal
(R10 kind 4). -/
def State.refuse (s : State) (r : Reason) : State := s.answer (.refusal r)

/-- The end of a pure operation: no state of the block is written (R9), its answer is the outcome. -/
def State.finish {α : Type} (s : State) (value : α → Value) : Answer α → State
  | .result a => s.answer (.value (value a))
  | .raise k => s.raise k
  | .refuse r => s.refuse r

/-! ### The framer's fields -/

/-- The reset of all four fields (R30, R161, R240). -/
def State.resetFramer (s : State) : State := { s with mode := .idle, buf := [], pos := 0, prev := none }

/-- The self-reset after a dispatch, successful or failed (R167, R217, R241): `st.prev` is not touched. -/
def State.selfReset (s : State) : State := { s with mode := .idle, buf := [], pos := 0 }

/-- A start has been detected: the buffer is set to the literal `[0x7e, 0xa0]` (R163). -/
def State.startCollecting (s : State) : State :=
  { s with mode := .collecting, buf := Memory.ofBytes [0x7e, 0xa0], pos := 2 }

/-- Append a byte in `Collecting` and count it (R163). -/
def State.store (s : State) (b : Byte) : State := { s with buf := s.buf.append b, pos := s.pos + 1 }

/-- The session is held to the present configuration from here on (R50, R242; log entry 2). -/
def State.hold (s : State) : State := { s with session := some s.cfg }

/-- `st.prev <- some b`, the last thing an `RX` does (R164). -/
def State.remember (s : State) (b : Byte) : State := { s with prev := some b }

end Sys2Proof.Machine
end

