-- ==== Sys2Proof/Machine/Flags.lean ====
section
/-! DEFINITION. The block has no flags and no condition codes (R29). What its operations test instead is here, whole: the
validity of the configuration (R8, R50), start detection (R162), the dispatch condition (R165), the key lengths (R146). -/

namespace Sys2Proof.Machine

open Sys2Proof

/-- The key lengths in bytes (R8, R115, R146). -/
abbrev keyLengthOk (key : Bytes) : Prop := key.length = 16 ∨ key.length = 24 ∨ key.length = 32

/-- A configuration is valid: the six lines of R8. `CT_OFF + 3 <= FRAME_LEN` stands before the subtraction. -/
abbrev cfgValid (c : Cfg) : Prop :=
  2 ≤ c.stOff ∧ c.stOff + 8 ≤ c.icOff ∧ c.icOff + 4 ≤ c.ctOff ∧ c.ctOff + 3 ≤ c.frameLen ∧
    c.frameLen - c.ctOff - 3 ≤ (2 ^ 32 - 2) * 16 ∧ keyLengthOk c.key

/-- `cfg` is the one the session is held to, where it is held to one (R50; D11: "a `cfg` different from the one of the last
`RESET`" is what is refused). -/
abbrev State.cfgKept (s : State) : Prop := s.session = none ∨ s.session = some s.cfg

/-- An operation that reads `cfg` may run: R8 holds, and `cfg` is the session's (R50, R216 item 2, R219). -/
abbrev State.configOk (s : State) : Prop := cfgValid s.cfg ∧ s.cfgKept

/-- `start(st, b)` (R162): the previous byte is `0x7e` and this one is `0xa0`. -/
abbrev State.start (s : State) (b : Byte) : Prop := s.prev = some 0x7e ∧ b = 0xa0

/-- The dispatch condition (R165), tested after the increment. -/
abbrev State.full (s : State) : Prop := s.pos = s.cfg.frameLen

end Sys2Proof.Machine
end

