-- ==== Sys2Proof/Machine/Aes.lean ====
section
/-! DEFINITION. The AES forward cipher (41_aes_cipher.md), one function, `aes key block`.
R110: the source document does not define AES; rules R111 to R122 are the spec's, marked there as general knowledge
(log entry 13). -/

namespace Sys2Proof.Machine

open Sys2Proof

/-! ### Arithmetic on bytes (R111) -/

/-- Multiplication by x in GF(2^8) (R111). -/
def xtime (a : Byte) : Byte := if a.toNat < 0x80 then a <<< 1 else (a <<< 1) ^^^ 0x1B

/-- The loop of `gmul` (R111), for as many bits of the multiplier as remain. -/
def gmulLoop : Nat → Byte → Byte → Byte → Byte
  | 0, _, _, r => r
  | n + 1, a, b, r => gmulLoop n (xtime a) (b >>> 1) (if b &&& 1 = 1 then r ^^^ a else r)

/-- Multiplication of two bytes by shift and add (R111): after 8 turns the multiplier is 0. -/
def gmul (a b : Byte) : Byte := gmulLoop 8 a b 0

/-! ### The substitution box (R112, R113) -/

/-- The multiplicative inverse of R112, with `inv(0) = 0`: the byte whose product with `a` is 1. -/
def gfInv (a : Byte) : Byte :=
  (((List.range 256).map (BitVec.ofNat 8)).find? fun x => gmul a x = 1).getD 0

/-- The bit formula of R112 on `x = inv(a)`: bit `i` is
`x_i xor x_(i+4) xor x_(i+5) xor x_(i+6) xor x_(i+7) xor k_i`, indices modulo 8, `k = 0x63`. -/
def sboxAffine (x : Byte) : Byte :=
  x ^^^ x.rotateRight 4 ^^^ x.rotateRight 5 ^^^ x.rotateRight 6 ^^^ x.rotateRight 7 ^^^ 0x63

/-- The table of R113, rows `0_` to `7_`. -/
def sboxRowsLow : List (List Byte) :=
   [[0x63, 0x7c, 0x77, 0x7b, 0xf2, 0x6b, 0x6f, 0xc5, 0x30, 0x01, 0x67, 0x2b, 0xfe, 0xd7, 0xab, 0x76],
    [0xca, 0x82, 0xc9, 0x7d, 0xfa, 0x59, 0x47, 0xf0, 0xad, 0xd4, 0xa2, 0xaf, 0x9c, 0xa4, 0x72, 0xc0],
    [0xb7, 0xfd, 0x93, 0x26, 0x36, 0x3f, 0xf7, 0xcc, 0x34, 0xa5, 0xe5, 0xf1, 0x71, 0xd8, 0x31, 0x15],
    [0x04, 0xc7, 0x23, 0xc3, 0x18, 0x96, 0x05, 0x9a, 0x07, 0x12, 0x80, 0xe2, 0xeb, 0x27, 0xb2, 0x75],
    [0x09, 0x83, 0x2c, 0x1a, 0x1b, 0x6e, 0x5a, 0xa0, 0x52, 0x3b, 0xd6, 0xb3, 0x29, 0xe3, 0x2f, 0x84],
    [0x53, 0xd1, 0x00, 0xed, 0x20, 0xfc, 0xb1, 0x5b, 0x6a, 0xcb, 0xbe, 0x39, 0x4a, 0x4c, 0x58, 0xcf],
    [0xd0, 0xef, 0xaa, 0xfb, 0x43, 0x4d, 0x33, 0x85, 0x45, 0xf9, 0x02, 0x7f, 0x50, 0x3c, 0x9f, 0xa8],
    [0x51, 0xa3, 0x40, 0x8f, 0x92, 0x9d, 0x38, 0xf5, 0xbc, 0xb6, 0xda, 0x21, 0x10, 0xff, 0xf3, 0xd2]]

/-- The table of R113, rows `8_` to `f_`. -/
def sboxRowsHigh : List (List Byte) :=
   [[0xcd, 0x0c, 0x13, 0xec, 0x5f, 0x97, 0x44, 0x17, 0xc4, 0xa7, 0x7e, 0x3d, 0x64, 0x5d, 0x19, 0x73],
    [0x60, 0x81, 0x4f, 0xdc, 0x22, 0x2a, 0x90, 0x88, 0x46, 0xee, 0xb8, 0x14, 0xde, 0x5e, 0x0b, 0xdb],
    [0xe0, 0x32, 0x3a, 0x0a, 0x49, 0x06, 0x24, 0x5c, 0xc2, 0xd3, 0xac, 0x62, 0x91, 0x95, 0xe4, 0x79],
    [0xe7, 0xc8, 0x37, 0x6d, 0x8d, 0xd5, 0x4e, 0xa9, 0x6c, 0x56, 0xf4, 0xea, 0x65, 0x7a, 0xae, 0x08],
    [0xba, 0x78, 0x25, 0x2e, 0x1c, 0xa6, 0xb4, 0xc6, 0xe8, 0xdd, 0x74, 0x1f, 0x4b, 0xbd, 0x8b, 0x8a],
    [0x70, 0x3e, 0xb5, 0x66, 0x48, 0x03, 0xf6, 0x0e, 0x61, 0x35, 0x57, 0xb9, 0x86, 0xc1, 0x1d, 0x9e],
    [0xe1, 0xf8, 0x98, 0x11, 0x69, 0xd9, 0x8e, 0x94, 0x9b, 0x1e, 0x87, 0xe9, 0xce, 0x55, 0x28, 0xdf],
    [0x8c, 0xa1, 0x89, 0x0d, 0xbf, 0xe6, 0x42, 0x68, 0x41, 0x99, 0x2d, 0x0f, 0xb0, 0x54, 0xbb, 0x16]]

/-- `SBOX[a]`: row `a >> 4`, column `a & 0xF` of the table of R113, which is what the cipher uses (R112). -/
def sbox (a : Byte) : Byte := ((sboxRowsLow ++ sboxRowsHigh).getD (a.toNat / 16) []).getD (a.toNat % 16) 0

/-! ### Words and the key schedule (R114 to R116) -/

/-- A word: a string of 4 bytes (R114).
A column of the cipher's state is one too, its bytes in rows 0 to 3 (R117, R118). -/
structure Word4 where
  b0 : Byte
  b1 : Byte
  b2 : Byte
  b3 : Byte
  deriving DecidableEq, Repr

/-- Bytewise XOR of two words (R116, R118). -/
def Word4.xor (u v : Word4) : Word4 := ⟨u.b0 ^^^ v.b0, u.b1 ^^^ v.b1, u.b2 ^^^ v.b2, u.b3 ^^^ v.b3⟩

/-- `RotWord`: rotate left by one byte (R116). -/
def Word4.rot (u : Word4) : Word4 := ⟨u.b1, u.b2, u.b3, u.b0⟩

/-- `SubWord`: every byte through the table (R116); on a column it is `SubBytes` (R119). -/
def Word4.sub (u : Word4) : Word4 := ⟨sbox u.b0, sbox u.b1, sbox u.b2, sbox u.b3⟩

/-- The bytes of a word in order. -/
def Word4.bytes (u : Word4) : Bytes := [u.b0, u.b1, u.b2, u.b3]

/-- The word at bytes `4*i .. 4*i+3` of a byte string (R116, R117). -/
def Word4.ofBytes (bs : Bytes) (i : Nat) : Word4 :=
  ⟨bs.getD (4 * i) 0, bs.getD (4 * i + 1) 0, bs.getD (4 * i + 2) 0, bs.getD (4 * i + 3) 0⟩

/-- The round constant `rc_j`, `j >= 1`: `rc_1 = 0x01`, `rc_(j+1) = xtime(rc_j)` (R114). -/
def rcon : Nat → Byte
  | 0 => 0x01
  | 1 => 0x01
  | j + 2 => xtime (rcon (j + 1))

/-- `Nk`, the key length in words (R115). -/
def keyWords (key : Bytes) : Nat := key.length / 4

/-- `Nr`, the number of rounds (R115): 10, 12, 14 for `Nk` 4, 6, 8. -/
def rounds (key : Bytes) : Nat := keyWords key + 6

/-- The word `t` of R116 for index `i`, from `w[i-1]`. -/
def scheduleTemp (nk i : Nat) (prev : Word4) : Word4 :=
  if i % nk = 0 then prev.rot.sub.xor ⟨rcon (i / nk), 0, 0, 0⟩
  else if 6 < nk ∧ i % nk = 4 then prev.sub
  else prev

/-- The loop of R116, `n` words from index `i` on, over the words so far with the NEWEST FIRST: the head is `w[i-1]` and
the entry at `Nk - 1` is `w[i-Nk]`. -/
def expandLoop (nk : Nat) : Nat → Nat → List Word4 → List Word4
  | 0, _, newest => newest
  | n + 1, i, newest =>
    let t := scheduleTemp nk i (newest.headD ⟨0, 0, 0, 0⟩)
    expandLoop nk n (i + 1) ((newest.getD (nk - 1) ⟨0, 0, 0, 0⟩).xor t :: newest)

/-- `key_expansion(key)`: the words `w[0] .. w[4*(Nr+1) - 1]` (R116). -/
def keyExpansion (key : Bytes) : List Word4 :=
  let nk := keyWords key
  let first := (List.range nk).map (Word4.ofBytes key)
  (expandLoop nk (4 * (rounds key + 1) - nk) nk first.reverse).reverse

/-! ### The state and the four transformations (R117 to R121) -/

/-- The state array of R117, by columns: row `r` of column `c` is byte `b<r>` of the word `c<c>`. -/
structure AesState where
  c0 : Word4
  c1 : Word4
  c2 : Word4
  c3 : Word4
  deriving DecidableEq, Repr

/-- Load a 16-byte block column by column: `s[r][c] = in[r + 4*c]` (R117). -/
def AesState.load (block : Bytes) : AesState :=
  ⟨Word4.ofBytes block 0, Word4.ofBytes block 1, Word4.ofBytes block 2, Word4.ofBytes block 3⟩

/-- Store the state as a 16-byte block: `out[r + 4*c] = s[r][c]` (R117). -/
def AesState.store (s : AesState) : Bytes := s.c0.bytes ++ s.c1.bytes ++ s.c2.bytes ++ s.c3.bytes

/-- The entry `s[r][c]` of the state array, row `r`, column `c`, both in 0..3 (R117). -/
def AesState.entry (s : AesState) (r c : Nat) : Byte := s.store.getD (r + 4 * c) 0

/-- `AddRoundKey(s, r)`: column `c` is XORed with word `w[4r + c]` (R118). -/
def AesState.addRoundKey (w : List Word4) (r : Nat) (s : AesState) : AesState :=
  let key (c : Nat) : Word4 := w.getD (4 * r + c) ⟨0, 0, 0, 0⟩
  ⟨s.c0.xor (key 0), s.c1.xor (key 1), s.c2.xor (key 2), s.c3.xor (key 3)⟩

/-- `SubBytes(s)` (R119). -/
def AesState.subBytes (s : AesState) : AesState := ⟨s.c0.sub, s.c1.sub, s.c2.sub, s.c3.sub⟩

/-- `ShiftRows(s)`: row `r` is rotated left by `r` positions, `s'[r][c] = s[r][(c + r) mod 4]` (R120). -/
def AesState.shiftRows (s : AesState) : AesState :=
  ⟨⟨s.c0.b0, s.c1.b1, s.c2.b2, s.c3.b3⟩, ⟨s.c1.b0, s.c2.b1, s.c3.b2, s.c0.b3⟩,
    ⟨s.c2.b0, s.c3.b1, s.c0.b2, s.c1.b3⟩, ⟨s.c3.b0, s.c0.b1, s.c1.b2, s.c2.b3⟩⟩

/-- `MixColumns` on one column (R121). -/
def Word4.mix (a : Word4) : Word4 :=
  ⟨gmul a.b0 2 ^^^ gmul a.b1 3 ^^^ a.b2 ^^^ a.b3,
    a.b0 ^^^ gmul a.b1 2 ^^^ gmul a.b2 3 ^^^ a.b3,
    a.b0 ^^^ a.b1 ^^^ gmul a.b2 2 ^^^ gmul a.b3 3,
    gmul a.b0 3 ^^^ a.b1 ^^^ a.b2 ^^^ gmul a.b3 2⟩

/-- `MixColumns(s)`: every column on its own (R121). -/
def AesState.mixColumns (s : AesState) : AesState := ⟨s.c0.mix, s.c1.mix, s.c2.mix, s.c3.mix⟩

/-! ### The cipher (R122) -/

/-- One middle round: `SubBytes; ShiftRows; MixColumns; AddRoundKey(s, r)` (R122). -/
def AesState.round (w : List Word4) (r : Nat) (s : AesState) : AesState :=
  s.subBytes.shiftRows.mixColumns.addRoundKey w r

/-- `n` middle rounds from round `r` on (R122). -/
def AesState.middleRounds (w : List Word4) : Nat → Nat → AesState → AesState
  | 0, _, s => s
  | n + 1, r, s => AesState.middleRounds w n (r + 1) (s.round w r)

/-- The cipher with `nr` rounds on the round keys `w` (R122): the last round has no `MixColumns`. -/
def aesWith (w : List Word4) (nr : Nat) (block : Bytes) : Bytes :=
  let s := (AesState.load block).addRoundKey w 0
  let s := AesState.middleRounds w (nr - 1) 1 s
  (s.subBytes.shiftRows.addRoundKey w nr).store

/-- `AES(key, block)` (R122). -/
def aes (key block : Bytes) : Bytes := aesWith (keyExpansion key) (rounds key) block

end Sys2Proof.Machine
end

