-- ==== Sys2Proof/Machine/Crc.lean ====
section
/-! DEFINITION. The CRC unit (40_crc.md): `byte_mirror`, `calc_crc16`, `verify`, and the operations `MIRROR`, `CRC16`,
`VERIFY`. -/

namespace Sys2Proof.Machine

open Sys2Proof

/-- `byte_mirror(b)`: bit `i` of the result is bit `7 - i` of `b`; the sum of R90. -/
def byteMirror (b : Byte) : Byte :=
  (List.range 8).foldl (fun (sum : Byte) (i : Nat) => sum + (((b >>> i) &&& 1) <<< (7 - i))) 0

/-- `POLY`, the value XORed into the register (R92). -/
def crcPoly : U16 := 0x1021

/-- `INIT`, the initial register (R92). -/
def crcInit : U16 := 0xFFFF

/-- The bit step on the register and the working value (R93): the test uses both as they are before either is shifted. -/
def crcBitStep : U16 × U16 → U16 × U16
  | (crc, c) => (if (crc ^^^ c) &&& 0x8000 ≠ 0 then (crc <<< 1) ^^^ crcPoly else crc <<< 1, c <<< 1)

/-- `n` bit steps, one after the other (R94). -/
def crcBitSteps : Nat → U16 × U16 → U16 × U16
  | 0, st => st
  | n + 1, st => crcBitSteps n (crcBitStep st)

/-- The working value of a data byte (R94): the mirrored byte in bits 15..8, zeros in bits 7..0. -/
def crcWorking (d : Byte) : U16 := (byteMirror d).setWidth 16 <<< 8

/-- The byte step (R94). -/
def crcByteStep (crc : U16) (d : Byte) : U16 := (crcBitSteps 8 (crc, crcWorking d)).1

/-- The final step (R95): complement, then each byte mirrored in its place. -/
def crcFinal (crc : U16) : U16 :=
  let t := 0xFFFF - crc
  256 * (byteMirror ((t >>> 8).setWidth 8)).setWidth 16 + (byteMirror (t.setWidth 8)).setWidth 16

/-- `calc_crc16(data)` (R96). -/
def calcCrc16 (data : Bytes) : U16 := crcFinal (data.foldl crcByteStep crcInit)

/-- The number of the two trailer bytes, `goal[0]*256 + goal[1]` (R43, R98). -/
def trailerValue (goal : Bytes) : Nat := (goal.getD 0 0).toNat * 256 + (goal.getD 1 0).toNat

/-- `verify(input, skip, tl, cut)` (R98). -/
def verify (input : Bytes) (skip tl cut : Nat) : Answer Bool :=
  let n := input.length
  if tl ≠ 2 then .refuse .badTrailerLength
  else if n < skip + tl + cut then .raise .malformedFrameError
  else
    let data := slice input skip (n - tl - cut)
    let goal := slice input (n - tl - cut) (n - cut)
    .result (decide ((calcCrc16 data).toNat = trailerValue goal))

/-- The one call the block itself makes (R100). -/
def verifyFrame (frame : Bytes) : Answer Bool := verify frame 1 2 1

/-- `MIRROR b` (R91). -/
def execMirror (b : Byte) (s : State) : Host.Outcome State Fault Refusal :=
  .next (s.answer (.value (.byte (byteMirror b))))

/-- `CRC16 data` (R97). -/
def execCrc16 (data : Bytes) (s : State) : Host.Outcome State Fault Refusal :=
  .next (s.answer (.value (.word (calcCrc16 data))))

/-- `VERIFY input, skip, tl, cut` (R99): a false result is a value, not a failure. -/
def execVerify (input : Bytes) (skip tl cut : Nat) (s : State) : Host.Outcome State Fault Refusal :=
  .next (s.finish .bool (verify input skip tl cut))

end Sys2Proof.Machine
end

