-- ==== Sys2Proof/Machine/Ctr.lean ====
section
/-! DEFINITION. The decryption unit (42_aes_ctr.md): counter mode, the slices of a telegram, and the operation `DECRYPT`. -/

namespace Sys2Proof.Machine

open Sys2Proof

/-- The initial block counter of every decryption (R141). -/
abbrev ctrInit : Nat := 2

/-- The counter block of keystream block `i` (R65, R141): nonce, then the 4-byte big-endian counter; `none` stands for
`refuse(CounterWrap)` (R143). -/
def counterBlock (nonce : Bytes) (ctr0 i : Nat) : Option Bytes :=
  if 0xFFFFFFFF < ctr0 + i then none else some (nonce ++ be32 (ctr0 + i))

/-- The keystream block number `i`: the FORWARD cipher on the counter block (R140, R142). -/
def keystreamBlock (key nonce : Bytes) (ctr0 i : Nat) : Option Bytes := (counterBlock nonce ctr0 i).map (aes key)

/-- The loop of R142 from data byte `j` on, with the keystream block in use: a new block at every multiple of 16.
`none` stands for `refuse(CounterWrap)`. -/
def ctrLoop (key nonce : Bytes) (ctr0 : Nat) : Nat → Bytes → Bytes → Option Bytes
  | _, _, [] => some []
  | j, ks, d :: ds =>
    match (if j % 16 = 0 then keystreamBlock key nonce ctr0 (j / 16) else some ks) with
    | none => none
    | some ks' => (ctrLoop key nonce ctr0 (j + 1) ks' ds).map fun out => (d ^^^ ks'.getD (j % 16) 0) :: out

/-- `ctr_xor(key, nonce, ctr0, data)` (R142). -/
def ctrXor (key nonce : Bytes) (ctr0 : Nat) (data : Bytes) : Answer Bytes :=
  match ctrLoop key nonce ctr0 0 [] data with
  | none => .refuse .counterWrap
  | some out => .result out

/-- The nonce of a telegram: systemTitle, then invocation counter, in buffer order (R144). -/
def frameNonce (cfg : Cfg) (frame : Bytes) : Bytes :=
  slice frame cfg.stOff (cfg.stOff + 8) ++ slice frame cfg.icOff (cfg.icOff + 4)

/-- The ciphertext of a telegram: from the header end to the trailing three bytes (R145). -/
def frameCiphertext (cfg : Cfg) (frame : Bytes) : Bytes := slice frame cfg.ctOff (frame.length - 3)

/-- `decrypt_frame(cfg, frame, key)` (R146): the key test comes first. -/
def decryptFrame (cfg : Cfg) (frame key : Bytes) : Answer Bytes :=
  if ¬keyLengthOk key then .refuse .badKeyLength
  else if frame.length < cfg.ctOff + 3 then .raise .malformedFrameError
  else ctrXor key (frameNonce cfg frame) ctrInit (frameCiphertext cfg frame)

/-- The checks and the result of `DECRYPT key, frame` after the configuration check, in the order of R216: `BadKeyLength`,
`Unverified` (R148), `MalformedFrameError`, `CounterWrap`, the plaintext. -/
def decryptVerified (cfg : Cfg) (key frame : Bytes) : Answer Bytes :=
  if ¬keyLengthOk key then .refuse .badKeyLength
  else if verifyFrame frame ≠ .result true then .refuse .unverified
  else decryptFrame cfg frame key

/-- `DECRYPT key, frame` (R147, R216). -/
def execDecrypt (key frame : Bytes) (s : State) : Host.Outcome State Fault Refusal :=
  if ¬s.configOk then .next (s.refuse .configInvalid)
  else .next (s.finish .bytes (decryptVerified s.cfg key frame))

end Sys2Proof.Machine
end

