-- ==== Sys2Proof/Machine/Framer.lean ====
section
/-! DEFINITION. The framer and the dispatch (43_framer.md): the operations `RESET` and `RX`. -/

namespace Sys2Proof.Machine

open Sys2Proof

/-- `RESET` (R161): all four fields to their reset values; a new session under the present configuration begins
(R50, R242, D11).
R242 orders `cfg`, then `RESET`; a `RESET` issued before `HOST` has supplied any configuration holds the session to the
presumed `WNREF` of log entry 1, so that the first record supplied after it needs another `RESET`: the model's choice, log
entry 2. -/
def execReset (s : State) : Host.Outcome State Fault Refusal :=
  .next (s.resetFramer.hold.answer .none)

/-- `dispatch(cfg, f)` on a collected buffer (R166): verify, then decrypt with `cfg.KEY`.
A failure inside it becomes the event `FAIL`; a refusal, which R8 rules out, is handed on (log entry 17). -/
def dispatch (cfg : Cfg) (f : Bytes) : Except Reason Event :=
  match verifyFrame f with
  | .refuse r => .error r
  | .raise k => .ok (.fail k)
  | .result false => .ok (.fail .checksumError)
  | .result true =>
    match decryptFrame cfg f cfg.key with
    | .refuse r => .error r
    | .raise k => .ok (.fail k)
    | .result pt => .ok (.decoded pt)

/-- What `RX b` does to the state, and its outcome (R163), before the outcome is recorded.
`st.prev` is written last, in both modes (R164); a refused `RX` writes nothing (R222).
An accepted `RX` holds the session to its configuration, as a `RESET` before it has done already (R50, R242; log entry 2). -/
def rx (b : Byte) (s : State) : State × OpOutcome :=
  if ¬s.configOk then (s, .refusal .configInvalid)
  else
    match s.mode with
    | .idle => (if s.start b then s.startCollecting.hold.remember b else s.hold.remember b, .none)
    | .collecting =>
      if (s.store b).full then
        match dispatch s.cfg (s.store b).buf.bytes with
        | .error r => (s, .refusal r)
        | .ok ev => ((s.store b).selfReset.hold.remember b, .event ev)
      else ((s.store b).hold.remember b, .none)

/-- `RX b` (R163). -/
def execRx (b : Byte) (s : State) : Host.Outcome State Fault Refusal :=
  .next ((rx b s).1.answer (rx b s).2)

end Sys2Proof.Machine
end

