-- ==== Sys2Proof/Machine/ProfileDecode.lean ====
section
/-! DEFINITION. The host side (45_host_profile_decode.md): the ProfileTable, `PDECODE`, the timestamp, `TSNORM`. -/

namespace Sys2Proof.Machine

open Sys2Proof

/-! ### The ProfileTable (R190) -/

/-- A half-open byte range `a:b` of the decrypted buffer (R190). -/
structure ByteRange where
  first : Nat
  last : Nat
  deriving DecidableEq, Repr

/-- The byte range of every field, in the row order of R190; `none` is "absent". -/
structure ProfileTable where
  aInWh : Option ByteRange
  aOutWh : Option ByteRange
  rInVarh : Option ByteRange
  rOutVarh : Option ByteRange
  pInW : Option ByteRange
  pOutW : Option ByteRange
  qInVar : Option ByteRange
  qOutVar : Option ByteRange
  year : ByteRange
  month : ByteRange
  day : ByteRange
  hour : ByteRange
  minute : ByteRange
  second : ByteRange
  deriving DecidableEq, Repr

/-- The WN column of R190. -/
def tableWn : ProfileTable :=
  { aInWh := some ⟨35, 39⟩, aOutWh := some ⟨40, 44⟩, rInVarh := some ⟨45, 49⟩, rOutVarh := some ⟨50, 54⟩,
    pInW := some ⟨55, 59⟩, pOutW := some ⟨60, 64⟩, qInVar := some ⟨65, 69⟩, qOutVar := some ⟨70, 74⟩,
    year := ⟨22, 24⟩, month := ⟨24, 25⟩, day := ⟨25, 26⟩, hour := ⟨27, 28⟩, minute := ⟨28, 29⟩, second := ⟨29, 30⟩ }

/-- The KN column of R190: reactive power is absent. -/
def tableKn : ProfileTable :=
  { aInWh := some ⟨57, 61⟩, aOutWh := some ⟨62, 66⟩, rInVarh := some ⟨67, 71⟩, rOutVarh := some ⟨72, 76⟩,
    pInW := some ⟨77, 81⟩, pOutW := some ⟨82, 86⟩, qInVar := none, qOutVar := none,
    year := ⟨51, 53⟩, month := ⟨53, 54⟩, day := ⟨54, 55⟩, hour := ⟨45, 46⟩, minute := ⟨46, 47⟩, second := ⟨47, 48⟩ }

/-- The table of a profile; `none` for an unsupported one (R193). -/
def profileTable : Profile → Option ProfileTable
  | .wn => some tableWn
  | .kn => some tableKn
  | .unsupported _ => none

/-- All ranges of a table. -/
def ProfileTable.ranges (t : ProfileTable) : List ByteRange :=
  [t.aInWh, t.aOutWh, t.rInVarh, t.rOutVarh, t.pInW, t.pOutW, t.qInVar, t.qOutVar].reduceOption ++
    [t.year, t.month, t.day, t.hour, t.minute, t.second]

/-- `need`: the largest range end, so the least length of a plaintext the table decodes (R190). -/
def ProfileTable.need (t : ProfileTable) : Nat := t.ranges.foldl (fun n r => max n r.last) 0

/-- The value of a field: the big-endian unsigned value of its range (R191, R193). -/
def field (plaintext : Bytes) (r : ByteRange) : Nat := ube (slice plaintext r.first r.last)

/-- The value of a field that may be absent (R192, R193). -/
def optionalField (plaintext : Bytes) (r : Option ByteRange) : Option Nat := r.map (field plaintext)

/-! ### The timestamp (R195, R196) -/

/-- The character of a decimal digit. -/
def digitChar (d : Nat) : Char := Char.ofNat ('0'.toNat + d)

/-- The decimal digits of `n`, most significant first, put before `acc`; the fuel is a bound on their number. -/
def decimalDigits : Nat → Nat → Text → Text
  | 0, _, acc => acc
  | fuel + 1, n, acc =>
    if n < 10 then digitChar n :: acc else decimalDigits fuel (n / 10) (digitChar (n % 10) :: acc)

/-- `dec(n)`: the shortest decimal numeral of a natural (R196). -/
def dec (n : Nat) : Text := decimalDigits (n + 1) n []

/-- `dec2(n)`: the decimal numeral of an integer, padded on the left with `0` to at least two characters and never
shortened; a minus sign counts toward the width (R196). -/
def dec2 (n : Int) : Text :=
  if n < 0 then '-' :: dec n.natAbs
  else if n < 10 then '0' :: dec n.natAbs
  else dec n.natAbs

/-- `tsnorm` (R195): only the hour is shifted; nothing is wrapped, carried or checked. -/
def tsnorm (year month day hour minute second : Nat) (off : Int) : Text :=
  dec year ++ ['-'] ++ dec2 month ++ ['-'] ++ dec2 day ++ ['T'] ++ dec2 (hour - off) ++ [':'] ++ dec2 minute ++
    [':'] ++ dec2 second ++ ['Z']

/-! ### Decoding (R193) -/

/-- The Reading that a table makes of a plaintext of sufficient length (R193). -/
def readingOf (t : ProfileTable) (off : Int) (plaintext : Bytes) : Reading :=
  { aInWh := optionalField plaintext t.aInWh, aOutWh := optionalField plaintext t.aOutWh,
    rInVarh := optionalField plaintext t.rInVarh, rOutVarh := optionalField plaintext t.rOutVarh,
    pInW := optionalField plaintext t.pInW, pOutW := optionalField plaintext t.pOutW,
    qInVar := optionalField plaintext t.qInVar, qOutVar := optionalField plaintext t.qOutVar,
    timestamp := tsnorm (field plaintext t.year) (field plaintext t.month) (field plaintext t.day)
      (field plaintext t.hour) (field plaintext t.minute) (field plaintext t.second) off }

/-- `pdecode(plaintext, profile, off)` (R193): the profile is tested first, then the length, once, before any field. -/
def pdecode (plaintext : Bytes) (profile : Profile) (off : Int) : Answer Reading :=
  match profileTable profile with
  | none => .raise .unsupportedProfileError
  | some t => if plaintext.length < t.need then .raise .malformedFrameError else .result (readingOf t off plaintext)

/-- `PDECODE profile, off, plaintext` (R194). -/
def execPdecode (profile : Profile) (off : Int) (plaintext : Bytes) (s : State) : Host.Outcome State Fault Refusal :=
  .next (s.finish .reading (pdecode plaintext profile off))

/-- `TSNORM year, month, day, hour, minute, second, off` (R198): every operand value is accepted. -/
def execTsnorm (year month day hour minute second : Nat) (off : Int) (s : State) : Host.Outcome State Fault Refusal :=
  .next (s.answer (.value (.text (tsnorm year month day hour minute second off))))

end Sys2Proof.Machine
end

