-- ==== Sys2Proof/Machine/Dispatch.lean ====
section
/-! DEFINITION. One operation, one atomic step (R6): one arm per constructor of `Instr`. -/

namespace Sys2Proof.Machine

open Sys2Proof

def exec (i : Instr) (s : State) : Host.Outcome State Fault Refusal :=
  match i with
  | .reset => Sys2Proof.Machine.execReset s
  | .rx b => Sys2Proof.Machine.execRx b s
  | .mirror b => Sys2Proof.Machine.execMirror b s
  | .crc16 data => Sys2Proof.Machine.execCrc16 data s
  | .verify input skip tl cut => Sys2Proof.Machine.execVerify input skip tl cut s
  | .decrypt key frame => Sys2Proof.Machine.execDecrypt key frame s
  | .pdecode profile off plaintext => Sys2Proof.Machine.execPdecode profile off plaintext s
  | .tsnorm year month day hour minute second off => Sys2Proof.Machine.execTsnorm year month day hour minute second off s

end Sys2Proof.Machine
end

