-- ==== Sys2Proof/Decode.lean ====
section
/-! DEFINITION. The command encoding (R66 to R70): the opcode map, the decoder, total on any byte string and rejecting by
name, and after it the encoder, written from the same map. -/

namespace Sys2Proof

/-- The eight opcodes of R68. -/
inductive Opcode where
  | reset
  | rx
  | mirror
  | crc16
  | verify
  | decrypt
  | pdecode
  | tsnorm
  deriving DecidableEq, Repr

/-- The rows of R68, in its order. -/
def Opcode.all : List Opcode := [.reset, .rx, .mirror, .crc16, .verify, .decrypt, .pdecode, .tsnorm]

/-- The opcode byte (R68, first column). -/
def Opcode.code : Opcode → Byte
  | .reset => 0x00
  | .rx => 0x01
  | .mirror => 0x10
  | .crc16 => 0x11
  | .verify => 0x12
  | .decrypt => 0x20
  | .pdecode => 0x40
  | .tsnorm => 0x41

/-- The operand types, in encoded order (R68, fourth column). -/
def Opcode.operandTypes : Opcode → List OperandType
  | .reset => []
  | .rx => [.u8]
  | .mirror => [.u8]
  | .crc16 => [.bytes]
  | .verify => [.u16, .u16, .u16, .bytes]
  | .decrypt => [.bytes, .bytes]
  | .pdecode => [.u8, .s8, .bytes]
  | .tsnorm => [.u16, .u8, .u8, .u8, .u8, .u8, .s8]

/-- The opcode of a byte; `none` when the byte is reserved (R69). -/
def Opcode.ofByte (b : Byte) : Option Opcode := Opcode.all.find? fun op => op.code = b

/-- The operation that an opcode and its operands, in encoded order, stand for (R68).
`none` only when the operands are not of the opcode's types. -/
def Instr.ofOperands : Opcode → List Operand → Option Instr
  | .reset, [] => some .reset
  | .rx, [.u8 b] => some (.rx (BitVec.ofNat 8 b))
  | .mirror, [.u8 b] => some (.mirror (BitVec.ofNat 8 b))
  | .crc16, [.bytes data] => some (.crc16 data)
  | .verify, [.u16 skip, .u16 tl, .u16 cut, .bytes input] => some (.verify input skip tl cut)
  | .decrypt, [.bytes key, .bytes frame] => some (.decrypt key frame)
  | .pdecode, [.u8 profile, .s8 off, .bytes plaintext] =>
    some (.pdecode (Profile.ofByte (BitVec.ofNat 8 profile)) off plaintext)
  | .tsnorm, [.u16 year, .u8 month, .u8 day, .u8 hour, .u8 minute, .u8 second, .s8 off] =>
    some (.tsnorm year month day hour minute second off)
  | _, _ => none

/-- Why a command is illegal: the four cases of R69. -/
inductive Illegal where
  /-- A command with no bytes at all. -/
  | empty
  /-- Its opcode is reserved. -/
  | reservedOpcode
  /-- Its bytes end before its operands are complete. -/
  | truncated
  /-- It has bytes left over after its last operand. -/
  | leftOver
  deriving DecidableEq, Repr

/-- The decoder (R66 to R70). -/
def decode : Bytes → Except Illegal Instr
  | [] => .error .empty
  | b :: bs =>
    match Opcode.ofByte b with
    | none => .error .reservedOpcode
    | some op =>
      match decodeOperands op.operandTypes bs with
      | none => .error .truncated
      | some (_, _ :: _) => .error .leftOver
      | some (os, []) =>
        match Instr.ofOperands op os with
        | none => .error .truncated
        | some i => .ok i

/-- The opcode of an operation (R68). -/
def Instr.opcode : Instr → Opcode
  | .reset => .reset
  | .rx _ => .rx
  | .mirror _ => .mirror
  | .crc16 _ => .crc16
  | .verify .. => .verify
  | .decrypt .. => .decrypt
  | .pdecode .. => .pdecode
  | .tsnorm .. => .tsnorm

/-- The operands of an operation in encoded order (R68): `VERIFY` puts its three `u16` first. -/
def Instr.operands : Instr → List Operand
  | .reset => []
  | .rx b => [.u8 b.toNat]
  | .mirror b => [.u8 b.toNat]
  | .crc16 data => [.bytes data]
  | .verify input skip tl cut => [.u16 skip, .u16 tl, .u16 cut, .bytes input]
  | .decrypt key frame => [.bytes key, .bytes frame]
  | .pdecode profile off plaintext => [.u8 profile.toByte.toNat, .s8 off, .bytes plaintext]
  | .tsnorm year month day hour minute second off =>
    [.u16 year, .u8 month, .u8 day, .u8 hour, .u8 minute, .u8 second, .s8 off]

/-- The encoder: one opcode byte, then the operands (R66). -/
def encode (i : Instr) : Bytes := i.opcode.code :: encodeOperands i.operands

/-- The length of a command, determined from its front (R70), for a front that is continued by zeros.
A front that starts no command (no byte, or a reserved opcode) has length 1: its opcode byte. -/
def commandLength : Bytes → Nat
  | [] => 1
  | b :: bs =>
    match Opcode.ofByte b with
    | none => 1
    | some op => 1 + operandsLength op.operandTypes bs

/-- The first `n` bytes of a number, the least significant first: how spec/opcode_table.json numbers a command's bits,
bit 0 being the least significant bit of the first byte. -/
def tableBytes (n w : Nat) : Bytes := (List.range n).map fun k => BitVec.ofNat 8 (w / 256 ^ k)

/-- The command whose first `nbits` bits are those of `w` and whose other bits are 0: the table gives the operand bytes
of a variable command no bits, so the front is continued by zeros up to the command's length (R70). -/
def tableCommand (nbits w : Nat) : Bytes :=
  let front := tableBytes (nbits / 8) w
  front ++ List.replicate (commandLength front - front.length) 0

/-- What the decoder reads from the command whose bits are `w`, numbered as spec/opcode_table.json numbers them. -/
def decodeTableWord (nbits w : Nat) : Option Instr :=
  match decode (tableCommand nbits w) with
  | .ok i => some i
  | .error _ => none

end Sys2Proof
end

