-- ==== Sys2Proof/Machine/Interface.lean ====
section
/-! DEFINITION. Taking what the outside world offers (R6, R50, R242): the queue of issued commands and supplied
configurations. -/

namespace Sys2Proof.Machine

open Sys2Proof

/-- What the next step is about. -/
inductive Taken where
  /-- Nothing has been issued: the block never acts on its own (R6, R172). -/
  | nothing
  /-- `HOST` supplies a configuration. -/
  | configuration (cfg : Cfg)
  /-- A command that does not decode (R69). -/
  | illegal (why : Illegal)
  /-- A command that decodes to an operation. -/
  | operation (i : Instr)
  deriving DecidableEq, Repr

/-- Look at the oldest pending input. -/
def State.take (s : State) : Taken :=
  match s.inputs with
  | [] => .nothing
  | .configure cfg :: _ => .configuration cfg
  | .command bytes :: _ =>
    match decode bytes with
    | .error why => .illegal why
    | .ok i => .operation i

/-- The oldest pending input has been taken. -/
def State.taken (s : State) : State := { s with inputs := s.inputs.tail }

/-- `HOST` supplies a configuration (R242): it is in force for every later operation that reads it (R52).
It is no operation and has no outcome.
It reads and writes no field of the framer; which configuration the session is held to it leaves as it is.
So a record supplied before the first `RX` of a session created without a `RESET`, the first one or a later one, is no change
(R242), and one supplied after that `RX` or after a `RESET` is one when it differs (R50, R219): log entry 2. -/
def State.supply (s : State) (cfg : Cfg) : State := { s with cfg := cfg }

/-- Issue a command before everything that is pending. -/
def State.issue (s : State) (bytes : Bytes) : State := { s with inputs := .command bytes :: s.inputs }

end Sys2Proof.Machine
end

