-- ==== Sys2Proof/Machine/Step.lean ====
section
/-! DEFINITION. One step of the machine: it takes the oldest pending input, and runs the operation it decodes to. -/

namespace Sys2Proof.Machine

open Sys2Proof

/-- One step.
With nothing pending the state stays as it is (R6, R172); a command that does not decode is turned away, reason
`IllegalCommand` (R69); every other command runs the operation it decodes to, one atomic step (R6). -/
def step (s : State) : Host.Outcome State Fault Refusal :=
  match s.take with
  | .nothing => .next s
  | .configuration cfg => .next (s.taken.supply cfg)
  | .illegal _ => .next (s.taken.refuse .illegalCommand)
  | .operation i => exec i s.taken

/-- The state in which the very next step runs the command whose bits are `w`, numbered as spec/opcode_table.json numbers
them, the bits above `nbits` being 0 (log entry 9). -/
def State.withFetchWord (s : State) (nbits w : Nat) : State := s.issue (tableCommand nbits w)

end Sys2Proof.Machine
end

