-- ==== Sys2Proof/Machine/CrcForms.lean ====
section
/-! DEFINITION. The equivalent forms of `calc_crc16` that R101 names: the working value folded into the register, and
CRC-16/X-25 with its two bytes swapped.
No operation uses them. -/

namespace Sys2Proof.Machine

open Sys2Proof

/-- One shift of the folded register, testing bit 15 of the register alone (R101 (a)). -/
def foldedBitStep (s : U16) : U16 := if s &&& 0x8000 ≠ 0 then (s <<< 1) ^^^ crcPoly else s <<< 1

/-- The byte step of the folded form: the mirrored byte is XORed into the high byte, then eight shifts (R101 (a)). -/
def foldedByteStep (crc : U16) (d : Byte) : U16 := foldedBitStep^[8] (crc ^^^ crcWorking d)

/-- One right shift of the reflected register with the reflected polynomial `0x8408` (R101 (b)). -/
def x25BitStep (r : U16) : U16 := if r &&& 1 ≠ 0 then (r >>> 1) ^^^ 0x8408 else r >>> 1

/-- The byte step of the reflected form: the byte enters at the low end, unmirrored (R101 (b)). -/
def x25ByteStep (r : U16) (d : Byte) : U16 := x25BitStep^[8] (r ^^^ d.setWidth 16)

/-- CRC-16/X-25 in its reflected form: polynomial `0x1021`, initial value `0xFFFF`, input and output reflected, final XOR
`0xFFFF` (R101 (b)). -/
def crcX25 (data : Bytes) : U16 := data.foldl x25ByteStep 0xFFFF ^^^ 0xFFFF

/-- The two bytes of a 16-bit value exchanged (R101 (b)). -/
def swapBytes (v : U16) : U16 := (v <<< 8) ||| (v >>> 8)

end Sys2Proof.Machine
end

