-- ==== Sys2Proof/Machine/Response.lean ====
section
/-! DEFINITION. Responses: the serialisation of an operation's outcome (R71), with the codes of R210 and R219. -/

namespace Sys2Proof.Machine

open Sys2Proof

/-- The code of a failure kind (R210). -/
def Failure.code : Failure → Nat
  | .checksumError => 1
  | .unsupportedProfileError => 2
  | .malformedFrameError => 3

/-- The code of a refusal reason (R219). -/
def Reason.code : Reason → Nat
  | .illegalCommand => 1
  | .configInvalid => 2
  | .badTrailerLength => 3
  | .badKeyLength => 4
  | .unverified => 5
  | .counterWrap => 6

/-- A byte string as `bytes` (R67); `none` where its length is no `u16` (log entry 12). -/
def bytesPayload (bs : Bytes) : Option Bytes := if fitsBytes bs then some (Operand.bytes bs).encode else none

/-- The ASCII characters of a string (R71). -/
def asciiBytes (t : Text) : Bytes := t.map fun c => BitVec.ofNat 8 c.toNat

/-- One counter of a Reading: `u8` presence, then 4 bytes big-endian, zero when absent (R71). -/
def counterPayload : Option Nat → Bytes
  | none => 0 :: be32 0
  | some v => 1 :: be32 v

/-- A Reading: the eight counters in the order of R199, then the timestamp as `bytes` (R71). -/
def Reading.payload (r : Reading) : Option Bytes :=
  (bytesPayload (asciiBytes r.timestamp)).map fun ts =>
    [r.aInWh, r.aOutWh, r.rInVarh, r.rOutVarh, r.pInW, r.pOutW, r.qInVar, r.qOutVar].flatMap counterPayload ++ ts

/-- The payload of a value (R71). -/
def Value.payload : Value → Option Bytes
  | .byte b => some [b]
  | .word v => some (be16 v.toNat)
  | .bool b => some [if b then 1 else 0]
  | .bytes bs => bytesPayload bs
  | .reading r => r.payload
  | .text t => bytesPayload (asciiBytes t)

/-- The status byte of a failure or a `FAIL` event: `0x80` plus the failure's code (R71). -/
def Failure.status (k : Failure) : Byte := BitVec.ofNat 8 (0x80 + k.code)

/-- The response to an outcome (R71).
`none` where R71 gives no serialisation: a byte string longer than 65535 bytes, and the host's `READING` event
(log entry 12). -/
def OpOutcome.response : OpOutcome → Option Bytes
  | .none => some [0x00]
  | .value v => v.payload.map (0x01 :: ·)
  | .event (.decoded pt) => (bytesPayload pt).map (0x02 :: ·)
  | .event (.fail k) => some [k.status]
  | .event (.reading _) => Option.none
  | .failure k => some [k.status]
  | .refusal r => some [0xFF, BitVec.ofNat 8 r.code]

/-- The responses to all operations so far, in the order of issue (R11). -/
def State.responses (s : State) : List (Option Bytes) := s.trace.map OpOutcome.response

end Sys2Proof.Machine
end

