-- ==== Sys2Proof/Machine/Telegram.lean ====
section
/-! DEFINITION. The wire format of a telegram as a transmitter builds it (R60, R63, R65): not an operation of the block, but
what its byte source delivers. -/

namespace Sys2Proof.Machine

open Sys2Proof

/-- The fields of a telegram between the address byte and the FCS, in the order of R60, and its last byte. -/
structure Telegram where
  /-- "length/control header bytes", indices `2 .. ST_OFF-1`. -/
  header : Bytes
  /-- systemTitle, 8 bytes from `ST_OFF`. -/
  systemTitle : Bytes
  /-- The gap up to `IC_OFF`, may be empty. -/
  gap1 : Bytes
  /-- Invocation counter, 4 bytes from `IC_OFF`. -/
  invocationCounter : Bytes
  /-- The gap up to `CT_OFF`, may be empty. -/
  gap2 : Bytes
  /-- Ciphertext, from `CT_OFF`. -/
  ciphertext : Bytes
  /-- The end flag, `0x7e` in a well-formed telegram; the block never examines it (R171). -/
  endFlag : Byte
  deriving DecidableEq, Repr

/-- The fields have the lengths that the offsets of `cfg` give them (R60). -/
abbrev Telegram.fits (cfg : Cfg) (t : Telegram) : Prop :=
  t.header.length + 2 = cfg.stOff ∧ t.systemTitle.length = 8 ∧ t.gap1.length + cfg.stOff + 8 = cfg.icOff ∧
    t.invocationCounter.length = 4 ∧ t.gap2.length + cfg.icOff + 4 = cfg.ctOff ∧
    t.ciphertext.length + cfg.ctOff + 3 = cfg.frameLen

/-- The bytes the FCS covers, from the address byte to the last ciphertext byte (R63). -/
def Telegram.covered (t : Telegram) : Bytes :=
  0xa0 :: (t.header ++ t.systemTitle ++ t.gap1 ++ t.invocationCounter ++ t.gap2 ++ t.ciphertext)

/-- The whole telegram on the wire: start flag, covered bytes, FCS most significant byte first, last byte (R60, R63). -/
def Telegram.frame (t : Telegram) : Bytes :=
  0x7e :: (t.covered ++ be16 (calcCrc16 t.covered).toNat ++ [t.endFlag])

/-- The nonce of a telegram: the 12 bytes systemTitle ++ invocation counter (R65, R144). -/
def Telegram.nonce (t : Telegram) : Bytes := t.systemTitle ++ t.invocationCounter

/-- A frame is intact exactly when the number of its FCS bytes is the CRC of the bytes it covers (R63). -/
abbrev intact (frame : Bytes) : Prop :=
  (calcCrc16 (slice frame 1 (frame.length - 3))).toNat =
    trailerValue (slice frame (frame.length - 3) (frame.length - 1))

end Sys2Proof.Machine
end

