-- ==== Sys2Proof/Machine/Pseudo.lean ====
section
/-! DEFINITION. Sequences of operations, and the pseudo-operations of R74 with their expansions: `FEED`, the two-operand
`VERIFY`, `VERIFYF`, and the host's `RXP` (R200). -/

namespace Sys2Proof.Machine

open Sys2Proof

/-- Operations issued one after the other (R50): the state after the last, or the first stop. -/
def execAll : List Instr → State → Host.Outcome State Fault Refusal
  | [], s => .next s
  | i :: is, s =>
    match exec i s with
    | .next t => execAll is t
    | .fault r => .fault r
    | .refused r => .refused r

/-- `FEED {b0 b1 .. bn}`: `RX b0`; `RX b1`; ..; `RX bn` (R74). -/
def feed (bs : Bytes) : List Instr := bs.map .rx

/-- The outcomes of a sequence of operations, one an operation, in the order of issue (R10, R11): what it adds to the record. -/
def outcomes (is : List Instr) (s : State) : List OpOutcome :=
  match execAll is s with
  | .next t => t.trace.drop s.trace.length
  | .fault _ => []
  | .refused _ => []

/-- The outcome of `FEED`: "the list of the non-`none` outcomes" of its `RX` operations (R74).
Each of these has also its own outcome in the record, as every operation has (R11). -/
def feedOutcome (bs : Bytes) (s : State) : List OpOutcome := (outcomes (feed bs) s).filter (· ≠ .none)

/-- `VERIFY input, skip`, with the defaults `trailerLength=2, cut=0` (R74). -/
def verifyDefault (input : Bytes) (skip : Nat) : Instr := .verify input skip 2 0

/-- `VERIFYF frame`, with the decode pipeline's `skip=1, trailerLength=2, cut=1` (R74, R100). -/
def verifyPipeline (frame : Bytes) : Instr := .verify frame 1 2 1

/-- The outcome of `RXP b` from the outcome of `RX b` (R200), with the host's profile and its current UTC offset. -/
def rxpOutcome (profile : Profile) (off : Int) : OpOutcome → OpOutcome
  | .event (.decoded pt) =>
    match pdecode pt profile off with
    | .result r => .event (.reading r)
    | .raise k => .event (.fail k)
    | .refuse r => .refusal r
  | o => o

/-- `RXP b` (R74, R200): `RX b`, and when its outcome is `DECODED(pt)`, the host's `PDECODE cfg.PROFILE, off, pt`. -/
def execRxp (b : Byte) (off : Int) (s : State) : Host.Outcome State Fault Refusal :=
  .next ((rx b s).1.answer (rxpOutcome s.cfg.profile off (rx b s).2))

end Sys2Proof.Machine
end

