-- ==== Sys2Proof/Safety.lean ====
section
/-! DEFINITION. What claims are stated in: the invariant of R25, the framer's fields as one tuple, and safe runs. -/

namespace Sys2Proof.Machine

open Sys2Proof

/-- The invariant of R25.
In `Idle` the buffer is empty and the position 0; in `Collecting` the position is the number of bytes held, at least 2 and
below the `FRAME_LEN` of the configuration the session is held to, and the first two bytes are `7e a0`. -/
def State.FramerInv (s : State) : Prop :=
  match s.mode with
  | .idle => s.buf = [] ∧ s.pos = 0
  | .collecting =>
    s.buf.length = s.pos ∧ 2 ≤ s.pos ∧ (∃ c ∈ s.session, s.pos < c.frameLen) ∧
      s.buf.read 0 = some 0x7e ∧ s.buf.read 1 = some 0xa0

/-- The frame buffer is in canonical form and R25 holds. -/
def State.Inv (s : State) : Prop := s.buf.wf ∧ s.FramerInv

/-- The architectural state of R20: the four fields of the framer. -/
def State.framer (s : State) : Mode × Memory × Nat × Option Byte := (s.mode, s.buf, s.pos, s.prev)

/-- What `RX` reads besides its operand (R103, R160): the framer's fields and the configuration. -/
def State.rxView (s : State) : (Mode × Memory × Nat × Option Byte) × Cfg × Option Cfg := (s.framer, s.cfg, s.session)

/-- The machine can go on from this state: a step answers a next state. -/
def State.CanStep (s : State) : Prop := ∃ t, step s = .next t

/-- A state of a run from reset with the given inputs from outside: after `k` steps of `core`. -/
def ReachedFrom (inputs : List Input) (t : State) : Prop :=
  ∃ k, Host.Core.run Sys2Proof.core k { State.reset with inputs := inputs } = .next t

end Sys2Proof.Machine
end

