-- ==== Sys2Proof/Certificates/Slice0/Obligations.lean ====
section
/-! DEFINITION. The statements for the provers, in the order of OBLIGATIONS.json.
Every statement about an operation whose conclusion is an equation `exec i s = .next t` is also that operation's
completion statement, and its frame: the fields of `s` that the record update does not name are unchanged.
Throughout, that an outcome is appended to `State.trace` is log entry 4, and that a refused operation is a step which records
its refusal there and changes nothing else is log entry 6.
That an accepted `RX` holds the session to its configuration (`session := some s.cfg`) is log entry 2. -/

open Sys2Proof Sys2Proof.Machine

/-! ### The command encoding (30_encoding.md) -/

/-- One command of each operation, written out from the opcode map of R68 and the programs of 95_test_vectors.md. -/
def Obligations.SpecCommandsDecode : Prop :=
  decode [0x00] = .ok .reset ∧
  decode [0x01, 0xa0] = .ok (.rx 0xa0) ∧
  decode [0x10, 0x31] = .ok (.mirror 0x31) ∧
  decode [0x11, 0x00, 0x02, 0xa0, 0x67] = .ok (.crc16 [0xa0, 0x67]) ∧
  decode [0x12, 0x00, 0x01, 0x00, 0x02, 0x00, 0x01, 0x00, 0x04, 0x7e, 0x00, 0x00, 0x7e] =
    .ok (.verify [0x7e, 0x00, 0x00, 0x7e] 1 2 1) ∧
  decode [0x20, 0x00, 0x01, 0xff, 0x00, 0x02, 0x7e, 0xa0] = .ok (.decrypt [0xff] [0x7e, 0xa0]) ∧
  decode [0x40, 0x01, 0xff, 0x00, 0x01, 0x17] = .ok (.pdecode .kn (-1) [0x17]) ∧
  decode [0x40, 0x07, 0x02, 0x00, 0x00] = .ok (.pdecode (.unsupported 7) 2 []) ∧
  decode [0x41, 0x07, 0xe5, 0x08, 0x01, 0x17, 0x00, 0x00, 0xfe] = .ok (.tsnorm 2021 8 1 23 0 0 (-2))

/-- What the encoder writes for a well-formed operation the decoder reads back, every operand at every value (R66 to R68). -/
def Obligations.DecodeOfEncodeIsIdentity : Prop :=
  ∀ i : Instr, i.wellFormed → decode (encode i) = .ok i

/-- A legal command stands for one operation, a well-formed one, and is the encoding of it (R66 to R69). -/
def Obligations.EncodeOfDecodeIsIdentity : Prop :=
  ∀ (bs : Bytes) (i : Instr), decode bs = .ok i → i.wellFormed ∧ encode i = bs

/-- The operand types of R67: what each type reads from the front of a byte string, and what it leaves. -/
def Obligations.OperandTypesReadAsStated : Prop :=
  (∀ (b : Byte) (rest : Bytes), OperandType.u8.decode (b :: rest) = some (.u8 b.toNat, rest)) ∧
  (∀ (b : Byte) (rest : Bytes), OperandType.s8.decode (b :: rest) =
    some (.s8 (if b.toNat < 128 then (b.toNat : Int) else (b.toNat : Int) - 256), rest)) ∧
  (∀ (b0 b1 : Byte) (rest : Bytes), OperandType.u16.decode (b0 :: b1 :: rest) =
    some (.u16 (b0.toNat * 256 + b1.toNat), rest)) ∧
  (∀ (b0 b1 : Byte) (bs rest : Bytes), bs.length = b0.toNat * 256 + b1.toNat →
    OperandType.bytes.decode (b0 :: b1 :: (bs ++ rest)) = some (.bytes bs, rest)) ∧
  ∀ (o : Operand) (rest : Bytes), o.fits → o.type.decode (o.encode ++ rest) = some (o, rest)

/-- The four kinds of illegal command of R69, each turned away: the command is taken, nothing else changes, and the outcome
is the refusal `IllegalCommand`. -/
def Obligations.IllegalCommandsAreTurnedAway : Prop :=
  ∀ (s : State) (bs : Bytes) (rest : List Input), s.inputs = .command bs :: rest →
    (bs = [] ∨
      (∃ op tail, bs = op :: tail ∧ op ∉ [0x00, 0x01, 0x10, 0x11, 0x12, 0x20, 0x40, 0x41]) ∨
      (∃ i : Instr, i.wellFormed ∧ ∃ missing, missing ≠ [] ∧ bs ++ missing = encode i) ∨
      (∃ i : Instr, i.wellFormed ∧ ∃ extra, extra ≠ [] ∧ bs = encode i ++ extra)) →
    step s = .next { s with inputs := rest, trace := s.trace ++ [.refusal .illegalCommand] }

/-- The length of a command, and that it is determined from the front (R70). -/
def Obligations.CommandLengthFromFront : Prop :=
  (∀ (i : Instr) (rest : Bytes), i.wellFormed → commandLength (encode i ++ rest) = (encode i).length) ∧
  (encode .reset).length = 1 ∧
  (∀ b, (encode (.rx b)).length = 2 ∧ (encode (.mirror b)).length = 2) ∧
  (∀ data, (encode (.crc16 data)).length = 3 + data.length) ∧
  (∀ input skip tl cut, (encode (.verify input skip tl cut)).length = 9 + input.length) ∧
  (∀ key frame, (encode (.decrypt key frame)).length = 5 + key.length + frame.length) ∧
  (∀ profile off plaintext, (encode (.pdecode profile off plaintext)).length = 5 + plaintext.length) ∧
  (∀ y mo d h mi se off, (encode (.tsnorm y mo d h mi se off)).length = 9)

/-! ### Steps and outcomes (00_scope.md) -/

/-- A step runs the decoded operation on the state from which the command has been taken; what it does with the other inputs;
with nothing issued the state stays as it is (R172).
The queue of inputs is the model's own (log entries 5 and 8).
That a supplied configuration leaves the one the session is held to (R50) as it is is log entry 2. -/
def Obligations.StepRunsTheDecodedOperation : Prop :=
  ∀ s : State,
    (∀ bs rest i, s.inputs = .command bs :: rest → decode bs = .ok i → step s = exec i { s with inputs := rest }) ∧
    (∀ i rest, i.wellFormed → s.inputs = .command (encode i) :: rest → step s = exec i { s with inputs := rest }) ∧
    (∀ c rest, s.inputs = .configure c :: rest → step s =
      .next { s with inputs := rest, cfg := c }) ∧
    (s.inputs = [] → step s = .next s)

/-- Every operation, on every state, returns exactly one outcome, and no operation touches what is still pending or the
configuration (R10). -/
def Obligations.EveryOperationReturnsOneOutcome : Prop :=
  ∀ (i : Instr) (s : State), ∃ (t : State) (o : OpOutcome), exec i s = .next t ∧ t.trace = s.trace ++ [o] ∧
    t.inputs = s.inputs ∧ t.cfg = s.cfg

/-- The pure operations write no state of the block: only `RESET` and `RX` do (R9, column "state written"). -/
def Obligations.PureOperationsWriteNoState : Prop :=
  ∀ (i : Instr) (s t : State), i ≠ .reset → (∀ b, i ≠ .rx b) → exec i s = .next t → { t with trace := s.trace } = s

/-- Which operation is refused for which reason, and that a refused operation changes nothing (R219).
Which configurations `RX` and `DECRYPT` are refused under is log entries 2 and 16.
Under the invariant of R25 an `RX` is refused for its configuration only. -/
def Obligations.RefusalsHaveTheirCause : Prop :=
  ∀ (i : Instr) (s t : State) (r : Reason), s.Inv → exec i s = .next t → t.trace = s.trace ++ [.refusal r] →
    { t with trace := s.trace } = s ∧
    match r with
    | .illegalCommand => False
    | .configInvalid => ((∃ b, i = .rx b) ∨ ∃ key frame, i = .decrypt key frame) ∧ ¬(cfgValid s.cfg ∧ s.cfgKept)
    | .badTrailerLength => ∃ input skip tl cut, i = .verify input skip tl cut ∧ tl ≠ 2
    | .badKeyLength => ∃ key frame, i = .decrypt key frame ∧ key.length ∉ [16, 24, 32]
    | .unverified => ∃ key frame, i = .decrypt key frame ∧ verify frame 1 2 1 ≠ .result true
    | .counterWrap => ∃ key frame, i = .decrypt key frame ∧ (2 ^ 32 - 2) * 16 + s.cfg.ctOff + 3 < frame.length

/-- Which operation raises which failure kind (R210), and what a failure leaves (R217): a pure operation changes nothing, a
failure inside the dispatch leaves the framer as a success does (for `session` see log entry 2). -/
def Obligations.FailuresHaveTheirCause : Prop :=
  ∀ (i : Instr) (s t : State) (k : Failure), s.Inv → exec i s = .next t →
    (t.trace = s.trace ++ [.failure k] → { t with trace := s.trace } = s ∧
      match k with
      | .checksumError => False
      | .unsupportedProfileError => ∃ code off plaintext, i = .pdecode (.unsupported code) off plaintext
      | .malformedFrameError =>
        (∃ input skip tl cut, i = .verify input skip tl cut ∧ input.length < skip + tl + cut) ∨
        (∃ key frame, i = .decrypt key frame ∧ frame.length < s.cfg.ctOff + 3) ∨
        (∃ off plaintext, i = .pdecode .wn off plaintext ∧ plaintext.length < 74) ∨
        (∃ off plaintext, i = .pdecode .kn off plaintext ∧ plaintext.length < 86)) ∧
    (t.trace = s.trace ++ [.event (.fail k)] → k = .checksumError ∧ ∃ b, i = .rx b ∧
      verify (s.buf.bytes ++ [b]) 1 2 1 = .result false ∧
      t = { s with mode := .idle, buf := [], pos := 0, prev := some b, session := some s.cfg,
                   trace := s.trace ++ [.event (.fail k)] })

/-! ### The CRC unit (40_crc.md) -/

/-- `MIRROR b` returns the byte with the bits in reverse order, and mirroring the result returns `b` (R90, R91). -/
def Obligations.MirrorReversesTheBits : Prop :=
  ∀ (b : Byte) (s : State), ∃ m : Byte,
    exec (.mirror b) s = .next { s with trace := s.trace ++ [.value (.byte m)] } ∧
    exec (.mirror m) s = .next { s with trace := s.trace ++ [.value (.byte b)] } ∧
    ∀ i < 8, m.getLsbD i = b.getLsbD (7 - i)

/-- `CRC16 data` returns `calc_crc16(data)`, with the corner cases and the example that R97 gives. -/
def Obligations.Crc16ReturnsTheCrc : Prop :=
  (∀ (data : Bytes) (s : State),
    exec (.crc16 data) s = .next { s with trace := s.trace ++ [.value (.word (calcCrc16 data))] }) ∧
  calcCrc16 [] = 0x0000 ∧ calcCrc16 [0x00] = 0x78f0 ∧ calcCrc16 [0xff] = 0x00ff ∧ calcCrc16 [0xff, 0xff] = 0xffff ∧
  calcCrc16 [0x00, 0x00] = 0x470f ∧
  calcCrc16 [0x31, 0x32, 0x33, 0x34, 0x35, 0x36, 0x37, 0x38, 0x39] = 0x6e90

/-- The steps of the CRC as numbers: the bit step, on the register and the working value (R93); the working value of a byte
(R94); the final step (R95); the bytes in index order from the initial register (R96). -/
def Obligations.CrcStepsAsStated : Prop :=
  (∀ crc c : U16, (crcBitStep (crc, c)).2.toNat = c.toNat * 2 % 2 ^ 16 ∧ (crcBitStep (crc, c)).1.toNat =
    if crc.getLsbD 15 ≠ c.getLsbD 15 then (crc.toNat * 2 % 2 ^ 16) ^^^ 0x1021 else crc.toNat * 2 % 2 ^ 16) ∧
  (∀ (crc : U16) (d : Byte), (crcWorking d).toNat = 256 * (byteMirror d).toNat ∧
    crcByteStep crc d = (crcBitSteps 8 (crc, crcWorking d)).1 ∧ (crcBitSteps 8 (crc, crcWorking d)).2 = 0) ∧
  (∀ crc : U16, (crcFinal crc).toNat = 256 * (byteMirror (BitVec.ofNat 8 ((0xFFFF - crc.toNat) / 256))).toNat +
    (byteMirror (BitVec.ofNat 8 ((0xFFFF - crc.toNat) % 256))).toNat) ∧
  ∃ register : Bytes → U16, register [] = 0xFFFF ∧
    (∀ (data : Bytes) (d : Byte), register (data ++ [d]) = crcByteStep (register data) d) ∧
    ∀ data : Bytes, calcCrc16 data = crcFinal (register data)

/-- `VERIFY`: another trailer length is refused, first; an input too short fails; otherwise the value compares the CRC of the
data with the big-endian number of the two trailer bytes (R98, R99). -/
def Obligations.VerifyComparesTheTrailer : Prop :=
  (∀ (input : Bytes) (skip tl cut : Nat) (s : State), tl ≠ 2 →
    exec (.verify input skip tl cut) s = .next { s with trace := s.trace ++ [.refusal .badTrailerLength] }) ∧
  (∀ (input : Bytes) (skip cut : Nat) (s : State), input.length < skip + 2 + cut →
    exec (.verify input skip 2 cut) s = .next { s with trace := s.trace ++ [.failure .malformedFrameError] }) ∧
  ∀ (skipped data cutOff : Bytes) (g0 g1 : Byte) (s : State),
    exec (.verify (skipped ++ data ++ [g0, g1] ++ cutOff) skipped.length 2 cutOff.length) s =
      .next { s with trace := s.trace ++
        [.value (.bool (decide ((calcCrc16 data).toNat = g0.toNat * 256 + g1.toNat)))] }

/-- A buffer that carries its own CRC as its trailer verifies, and with any other trailer it does not (R102). -/
def Obligations.VerifyRoundTrip : Prop :=
  ∀ (data : Bytes) (s : State),
    exec (.verify (data ++ be16 (calcCrc16 data).toNat) 0 2 0) s =
      .next { s with trace := s.trace ++ [.value (.bool true)] } ∧
    ∀ g0 g1 : Byte, [g0, g1] ≠ be16 (calcCrc16 data).toNat →
      exec (.verify (data ++ [g0, g1]) 0 2 0) s = .next { s with trace := s.trace ++ [.value (.bool false)] }

/-- A change of one byte of the data, so also of one bit of it, is always detected (R102, second sharpening). -/
def Obligations.OneByteErrorIsDetected : Prop :=
  ∀ (before after : Bytes) (d d' : Byte), d ≠ d' →
    verify (before ++ d' :: after ++ be16 (calcCrc16 (before ++ d :: after)).toNat) 0 2 0 = .result false

/-- The CRC of a string that ends in its own CRC is the constant `0x470f` (R102, residue). -/
def Obligations.CrcResidueIsConstant : Prop :=
  ∀ data : Bytes, calcCrc16 (data ++ be16 (calcCrc16 data).toNat) = 0x470f

/-- The working value can be folded into the register (R101 (a)). -/
def Obligations.CrcFoldedFormAgrees : Prop :=
  ∀ data : Bytes, calcCrc16 data = crcFinal (data.foldl foldedByteStep crcInit)

/-- `calc_crc16` is CRC-16/X-25 with its two bytes swapped (R101 (b)). -/
def Obligations.CrcIsX25WithSwappedBytes : Prop :=
  ∀ data : Bytes, calcCrc16 data = swapBytes (crcX25 data)

/-! ### The AES forward cipher (41_aes_cipher.md) -/

/-- The published examples of R122, one for each key length. -/
def Obligations.AesPublishedExamples : Prop :=
  let block : Bytes :=
    [0x00, 0x11, 0x22, 0x33, 0x44, 0x55, 0x66, 0x77, 0x88, 0x99, 0xaa, 0xbb, 0xcc, 0xdd, 0xee, 0xff]
  let key (n : Nat) : Bytes := (List.range n).map (BitVec.ofNat 8)
  aes (key 16) block =
    [0x69, 0xc4, 0xe0, 0xd8, 0x6a, 0x7b, 0x04, 0x30, 0xd8, 0xcd, 0xb7, 0x80, 0x70, 0xb4, 0xc5, 0x5a] ∧
  aes (key 24) block =
    [0xdd, 0xa9, 0x7c, 0xa4, 0x86, 0x4c, 0xdf, 0xe0, 0x6e, 0xaf, 0x70, 0xa0, 0xec, 0x0d, 0x71, 0x91] ∧
  aes (key 32) block =
    [0x8e, 0xa2, 0xb7, 0xca, 0x51, 0x67, 0x45, 0xbf, 0xea, 0xfc, 0x49, 0x90, 0x4b, 0x49, 0x60, 0x89]

/-- The table of R113 is the definition of R112: the bit formula on the multiplicative inverse, with `inv(0) = 0`. -/
def Obligations.SboxIsTheBitFormulaOnTheInverse : Prop :=
  ∃ inv : Byte → Byte, inv 0 = 0 ∧ (∀ a, a ≠ 0 → gmul a (inv a) = 1) ∧
    ∀ a, ∀ i < 8, (sbox a).getLsbD i =
      (((inv a).getLsbD i).xor (((inv a).getLsbD ((i + 4) % 8)).xor (((inv a).getLsbD ((i + 5) % 8)).xor
        (((inv a).getLsbD ((i + 6) % 8)).xor (((inv a).getLsbD ((i + 7) % 8)).xor ((0x63 : Byte).getLsbD i))))))

/-- The key schedule: its length for each key length, its first words, and the recurrence of R116. -/
def Obligations.KeyExpansionRecurrence : Prop :=
  ∀ (key : Bytes) (nk nr : Nat), (key.length, nk, nr) ∈ [(16, 4, 10), (24, 6, 12), (32, 8, 14)] →
    (keyExpansion key).length = 4 * (nr + 1) ∧
    (∀ i < nk, (keyExpansion key)[i]? = some (Word4.ofBytes key i)) ∧
    ∀ i, nk ≤ i → i < 4 * (nr + 1) → ∃ back prev : Word4,
      (keyExpansion key)[i - nk]? = some back ∧ (keyExpansion key)[i - 1]? = some prev ∧
      (keyExpansion key)[i]? = some (back.xor
        (if i % nk = 0 then (prev.rot.sub).xor ⟨rcon (i / nk), 0, 0, 0⟩
        else if 6 < nk ∧ i % nk = 4 then prev.sub
        else prev))

/-- The layout of the state array and the row rotation: `s[r][c] = in[r + 4*c]`, `out[r + 4*c] = s[r][c]` (R117), and
`s'[r][c] = s[r][(c + r) mod 4]` (R120). -/
def Obligations.StateLayoutAndShiftRows : Prop :=
  (∀ (block : Bytes) (r c : Nat), block.length = 16 → r < 4 → c < 4 →
    (AesState.load block).entry r c = block.getD (r + 4 * c) 0 ∧ (AesState.load block).store = block) ∧
  ∀ (s : AesState) (r c : Nat), r < 4 → c < 4 → s.shiftRows.entry r c = s.entry r ((c + r) % 4)

/-- The other three transformations, entry by entry: `AddRoundKey` (R118), `SubBytes` (R119), `MixColumns` (R121). -/
def Obligations.RoundTransformationsEntrywise : Prop :=
  ∀ (s : AesState) (r c : Nat), r < 4 → c < 4 →
    (∀ (w : List Word4) (round : Nat) (key : Word4), w[4 * round + c]? = some key →
      (s.addRoundKey w round).entry r c = s.entry r c ^^^ key.bytes.getD r 0) ∧
    s.subBytes.entry r c = sbox (s.entry r c) ∧
    s.mixColumns.entry r c =
      gmul (s.entry r c) 2 ^^^ gmul (s.entry ((r + 1) % 4) c) 3 ^^^ s.entry ((r + 2) % 4) c ^^^ s.entry ((r + 3) % 4) c

/-! ### Counter mode and DECRYPT (42_aes_ctr.md) -/

/-- The counter block: the nonce, then the 4-byte big-endian counter `ctr0 + i`; beyond `0xFFFFFFFF` there is none, which
is refused; the block's own initial counter is 2 (R141). -/
def Obligations.CounterBlockLayout : Prop :=
  (∀ (nonce : Bytes) (ctr0 i : Nat), nonce.length = 12 →
    (ctr0 + i ≤ 0xFFFFFFFF → ∃ cb, counterBlock nonce ctr0 i = some cb ∧ cb.length = 16 ∧ cb.take 12 = nonce ∧
      ube (cb.drop 12) = ctr0 + i) ∧
    (0xFFFFFFFF < ctr0 + i → counterBlock nonce ctr0 i = none)) ∧
  (∀ (key nonce : Bytes) (ctr0 : Nat), 0xFFFFFFFF < ctr0 → ctrXor key nonce ctr0 [0x00] = .refuse .counterWrap) ∧
  ∀ (c : Cfg) (frame key : Bytes), keyLengthOk key → c.ctOff + 3 ≤ frame.length →
    decryptFrame c frame key = ctrXor key (frameNonce c frame) 2 (frameCiphertext c frame)

/-- `ctr_xor`: as many bytes as the data, byte `j` XORed with byte `j mod 16` of the encrypted counter block `j / 16`
(R142). -/
def Obligations.CtrXorIsBytewise : Prop :=
  ∀ (key nonce data : Bytes) (ctr0 : Nat), ctr0 + (data.length - 1) / 16 ≤ 0xFFFFFFFF →
    ∃ out, ctrXor key nonce ctr0 data = .result out ∧ out.length = data.length ∧
      ∀ j d, data[j]? = some d → out[j]? = some (d ^^^ (aes key (nonce ++ be32 (ctr0 + j / 16))).getD (j % 16) 0)

/-- A decryption that would need a counter beyond `0xFFFFFFFF` is refused, and no other is (R143). -/
def Obligations.CounterNeverWraps : Prop :=
  ∀ (key nonce data : Bytes) (ctr0 : Nat), data ≠ [] →
    (ctrXor key nonce ctr0 data = .refuse .counterWrap ↔ 0xFFFFFFFF < ctr0 + (data.length - 1) / 16)

/-- Encryption is the same function: applying `ctr_xor` twice restores the data (R150). -/
def Obligations.CtrXorTwiceRestores : Prop :=
  ∀ (key nonce data out : Bytes) (ctr0 : Nat),
    ctrXor key nonce ctr0 data = .result out → ctrXor key nonce ctr0 out = .result data

/-- `DECRYPT` under an accepted configuration (log entry 16): the checks in their order, then the plaintext, byte for byte
(R144 to R148). -/
def Obligations.DecryptChecksThenDecrypts : Prop :=
  ∀ (key frame : Bytes) (s : State), cfgValid s.cfg → s.cfgKept →
    (key.length ∉ [16, 24, 32] →
      exec (.decrypt key frame) s = .next { s with trace := s.trace ++ [.refusal .badKeyLength] }) ∧
    (key.length ∈ [16, 24, 32] → ¬(4 ≤ frame.length ∧ intact frame) →
      exec (.decrypt key frame) s = .next { s with trace := s.trace ++ [.refusal .unverified] }) ∧
    (key.length ∈ [16, 24, 32] → 4 ≤ frame.length → intact frame → frame.length < s.cfg.ctOff + 3 →
      exec (.decrypt key frame) s = .next { s with trace := s.trace ++ [.failure .malformedFrameError] }) ∧
    (key.length ∈ [16, 24, 32] → intact frame → (2 ^ 32 - 2) * 16 + s.cfg.ctOff + 3 < frame.length →
      exec (.decrypt key frame) s = .next { s with trace := s.trace ++ [.refusal .counterWrap] }) ∧
    (key.length ∈ [16, 24, 32] → intact frame → s.cfg.ctOff + 3 ≤ frame.length →
      frame.length ≤ (2 ^ 32 - 2) * 16 + s.cfg.ctOff + 3 →
      ∃ pt, exec (.decrypt key frame) s = .next { s with trace := s.trace ++ [.value (.bytes pt)] } ∧
        pt.length = frame.length - 3 - s.cfg.ctOff ∧
        ∀ j < pt.length, pt[j]? = some (frame.getD (s.cfg.ctOff + j) 0 ^^^
          (aes key (slice frame s.cfg.stOff (s.cfg.stOff + 8) ++ slice frame s.cfg.icOff (s.cfg.icOff + 4) ++
            be32 (2 + j / 16))).getD (j % 16) 0))

/-- `DECRYPT` reads neither `cfg.KEY` nor `cfg.FRAME_LEN` beyond the check of the configuration (R147). -/
def Obligations.DecryptDoesNotReadTheConfiguredKey : Prop :=
  ∀ (s : State) (key frame otherKey : Bytes) (otherLen : Nat) (otherSession : Option Cfg),
    let t : State :=
      { s with cfg := { s.cfg with key := otherKey, frameLen := otherLen }, session := otherSession }
    cfgValid s.cfg → s.cfgKept → cfgValid t.cfg → t.cfgKept →
    ∃ o, exec (.decrypt key frame) s = .next { s with trace := s.trace ++ [o] } ∧
      exec (.decrypt key frame) t = .next { t with trace := s.trace ++ [o] }

/-! ### The framer (10_state.md, 43_framer.md, 70_reset_and_hazards.md) -/

/-- The four fields have the values of R30 at the creation of a session and after a `RESET` in any state. -/
def Obligations.ResetStateValues : Prop :=
  (State.reset.mode = .idle ∧ State.reset.buf = [] ∧ State.reset.pos = 0 ∧ State.reset.prev = none) ∧
  ∀ s : State, ∃ t, exec .reset s = .next t ∧ t.mode = .idle ∧ t.buf = [] ∧ t.pos = 0 ∧ t.prev = none

/-- `RESET` in any state (R161): all four fields to their reset values, and nothing else of the block.
The session is held to the present configuration from then on (R50, D11); that the state holds it is log entry 2. -/
def Obligations.ResetInAnyState : Prop :=
  ∀ s : State, exec .reset s =
    .next { s with mode := .idle, buf := [], pos := 0, prev := none, session := some s.cfg, trace := s.trace ++ [.none] }

/-- `RX b` in every case of R163: no start, a start, a byte stored, a dispatch; `st.prev` is always written (R164).
The last two cases, those of a byte appended at `st.pos`, are stated under the invariant of R25 (log entry 15).
That an accepted `RX` holds the session to the present configuration (R50, R242) is log entry 2. -/
def Obligations.RxTakesItsCase : Prop :=
  ∀ (b : Byte) (s : State), cfgValid s.cfg → s.cfgKept →
    (s.mode = .idle → ¬(s.prev = some 0x7e ∧ b = 0xa0) →
      exec (.rx b) s = .next { s with prev := some b, session := some s.cfg, trace := s.trace ++ [.none] }) ∧
    (s.mode = .idle → s.prev = some 0x7e → b = 0xa0 →
      exec (.rx b) s = .next { s with mode := .collecting, buf := [(0, 0x7e), (1, 0xa0)], pos := 2, prev := some b,
                                      session := some s.cfg, trace := s.trace ++ [.none] }) ∧
    (s.Inv → s.mode = .collecting → s.pos + 1 ≠ s.cfg.frameLen →
      exec (.rx b) s = .next { s with buf := s.buf ++ [(s.pos, b)], pos := s.pos + 1, prev := some b,
                                      session := some s.cfg, trace := s.trace ++ [.none] }) ∧
    (s.Inv → s.mode = .collecting → s.pos + 1 = s.cfg.frameLen → ∃ ev,
      dispatch s.cfg (s.buf.bytes ++ [b]) = .ok ev ∧
      exec (.rx b) s = .next { s with mode := .idle, buf := [], pos := 0, prev := some b,
                                      session := some s.cfg, trace := s.trace ++ [.event ev] })

/-- An `RX` or a `DECRYPT` under an invalid or changed configuration does not step at all: not even `st.prev` is
updated (R222).
That `DECRYPT` checks every line of R8 and the session's configuration, before its own checks, is log entry 16; which
configuration counts as changed is log entry 2. -/
def Obligations.InvalidConfigurationIsRefused : Prop :=
  ∀ s : State, ¬(cfgValid s.cfg ∧ s.cfgKept) →
    (∀ b, exec (.rx b) s = .next { s with trace := s.trace ++ [.refusal .configInvalid] }) ∧
    ∀ key frame, exec (.decrypt key frame) s = .next { s with trace := s.trace ++ [.refusal .configInvalid] }

/-- A configuration changed during a session is refused until the next `RESET`, which accepts it when it is valid (R50); the
old one supplied again is not "different from the one of the last `RESET`" (D11) and is taken as if nothing had happened.
The session is one held to its configuration: by a `RESET`, or, where it was created without one, by its first `RX`, which the
last clause says; that the second is held to its configuration too is log entry 2. -/
def Obligations.ChangedConfigurationNeedsReset : Prop :=
  ∀ (s : State) (c : Cfg) (b : Byte), c ≠ s.cfg → cfgValid c →
    (s.session = some s.cfg →
      exec (.rx b) (s.supply c) = .next { s.supply c with trace := s.trace ++ [.refusal .configInvalid] } ∧
      (∀ key frame, exec (.decrypt key frame) (s.supply c) =
        .next { s.supply c with trace := s.trace ++ [.refusal .configInvalid] }) ∧
      exec (.rx b) ((s.supply c).supply s.cfg) = exec (.rx b) s ∧
      execAll [.reset, .rx b] (s.supply c) =
        .next { s with mode := .idle, buf := [], pos := 0, prev := some b, cfg := c, session := some c,
                       trace := s.trace ++ [.none, .none] }) ∧
    (s.session = none → cfgValid s.cfg → s.Inv → ∃ t, exec (.rx b) s = .next t ∧ t.cfg = s.cfg ∧ t.session = some t.cfg)

/-- One byte of the buffer is written by an `RX` that stores: the byte at `st.pos`; every other address reads as before, and
the canonical form is kept (R40, R48). -/
def Obligations.RxWritesOneByteOfTheBuffer : Prop :=
  ∀ (b : Byte) (s : State), cfgValid s.cfg → s.cfgKept → s.Inv → s.mode = .collecting →
    s.pos + 1 ≠ s.cfg.frameLen → ∃ t, exec (.rx b) s = .next t ∧ t.buf.wf ∧ t.buf.read s.pos = some b ∧
      ∀ a, a ≠ s.pos → t.buf.read a = s.buf.read a

/-- The dispatch has exactly two outcomes on a collected buffer, decided by the FCS alone (R63, R166): the plaintext of
`FRAME_LEN - CT_OFF - 3` bytes, or `FAIL(ChecksumError)`. -/
def Obligations.DispatchHasTwoOutcomes : Prop :=
  ∀ (c : Cfg) (f : Bytes), cfgValid c → f.length = c.frameLen →
    (¬intact f → dispatch c f = .ok (.fail .checksumError)) ∧
    (intact f → ∃ pt, decryptFrame c f c.key = .result pt ∧ pt.length = c.frameLen - c.ctOff - 3 ∧
      dispatch c f = .ok (.decoded pt))

/-- After every dispatch, successful or failed, the framer is idle, empty, at position 0, with `st.prev` the last byte of the
telegram (R167). -/
def Obligations.SelfResetAfterEveryDispatch : Prop :=
  ∀ (b : Byte) (s : State), cfgValid s.cfg → s.cfgKept → s.Inv → s.mode = .collecting →
    s.pos + 1 = s.cfg.frameLen → ∃ t e, exec (.rx b) s = .next t ∧ t.trace = s.trace ++ [.event e] ∧
      t.mode = .idle ∧ t.buf = [] ∧ t.pos = 0 ∧ t.prev = some b

/-- The end flag is not examined: whatever the last byte of a telegram, the event is the same, and the two states differ in
`st.prev` only (R171). -/
def Obligations.EndFlagIsNotExamined : Prop :=
  ∀ (x y : Byte) (s : State), cfgValid s.cfg → s.cfgKept → s.Inv → s.mode = .collecting →
    s.pos + 1 = s.cfg.frameLen → ∃ t, exec (.rx x) s = .next t ∧ exec (.rx y) s = .next { t with prev := some y }

/-- The self-reset and `RESET` differ: after a telegram that ends in `0x7e` a `0xa0` starts the next one at once (R168), after
`RESET` it does not (R241). -/
def Obligations.SharedFlagStartsTheNextTelegram : Prop :=
  ∀ s : State, cfgValid s.cfg → s.cfgKept →
    (s.Inv → s.mode = .collecting → s.pos + 1 = s.cfg.frameLen → ∃ t,
      execAll [.rx 0x7e, .rx 0xa0] s = .next t ∧ t.mode = .collecting ∧ t.buf.bytes = [0x7e, 0xa0] ∧ t.pos = 2) ∧
    (∃ t, execAll [.reset, .rx 0xa0] s = .next t ∧ t.mode = .idle ∧ t.buf = [] ∧ t.pos = 0)

/-- No byte value is special inside a telegram: in `Collecting` every byte is stored as it comes, up to one byte before the
telegram is complete (R64, R170). -/
def Obligations.CollectedBytesAreStoredUnchanged : Prop :=
  ∀ (data : Bytes) (s : State), cfgValid s.cfg → s.cfgKept → s.Inv → s.mode = .collecting →
    s.pos + data.length < s.cfg.frameLen → ∃ t, execAll (feed data) s = .next t ∧
      t.buf.bytes = s.buf.bytes ++ data ∧ t.mode = .collecting ∧ t.pos = s.pos + data.length ∧
      t.trace = s.trace ++ List.replicate data.length .none

/-- Only `0x7e` immediately followed by `0xa0` starts a collection (R174): a stream without that pair, the previous byte
counted, leaves the framer idle and raises no event. -/
def Obligations.OnlyTheStartPairStarts : Prop :=
  ∀ (data : Bytes) (s : State), cfgValid s.cfg → s.cfgKept → s.mode = .idle →
    (∀ i : Nat, ¬((s.prev.toList ++ data)[i]? = some (0x7e : Byte) ∧ (s.prev.toList ++ data)[i + 1]? = some (0xa0 : Byte))) →
    execAll (feed data) s =
      .next { s with prev := (s.prev.toList ++ data).getLast?, session := if data = [] then s.session else some s.cfg,
                     trace := s.trace ++ List.replicate data.length .none }

/-- The framing property (R173): the stream `00 7e a0` and then exactly `FRAME_LEN - 2` arbitrary bytes, pairs `7e a0` among
them or not, causes exactly one dispatch, the last byte's, of the buffer `7e a0 ..` of `FRAME_LEN` bytes: the outcome of `FEED`, the list
of the non-`none` outcomes (R74), is that one event. -/
def Obligations.StreamCausesExactlyOneDispatch : Prop :=
  ∀ (data : Bytes) (s : State), cfgValid s.cfg → s.cfgKept → s.mode = .idle →
    data.length + 2 = s.cfg.frameLen → ∃ ev, dispatch s.cfg (0x7e :: 0xa0 :: data) = .ok ev ∧
      execAll (feed (0x00 :: 0x7e :: 0xa0 :: data)) s =
        .next { s with buf := [], pos := 0, prev := data.getLast?, session := some s.cfg,
                       trace := s.trace ++ List.replicate s.cfg.frameLen .none ++ [.event ev] } ∧
      feedOutcome (0x00 :: 0x7e :: 0xa0 :: data) s = [.event ev]

/-- The telegram that R60 lays out and R63 closes: its length, its fields at the offsets of the configuration, and that it is
intact. -/
def Obligations.TelegramLayout : Prop :=
  ∀ (c : Cfg) (tg : Telegram), cfgValid c → tg.fits c →
    tg.frame.length = c.frameLen ∧ tg.frame[0]? = some 0x7e ∧ tg.frame[1]? = some 0xa0 ∧
    slice tg.frame 2 c.stOff = tg.header ∧ slice tg.frame c.stOff (c.stOff + 8) = tg.systemTitle ∧
    slice tg.frame (c.stOff + 8) c.icOff = tg.gap1 ∧
    slice tg.frame c.icOff (c.icOff + 4) = tg.invocationCounter ∧
    slice tg.frame (c.icOff + 4) c.ctOff = tg.gap2 ∧
    slice tg.frame c.ctOff (c.frameLen - 3) = tg.ciphertext ∧
    slice tg.frame (c.frameLen - 3) (c.frameLen - 1) = be16 (calcCrc16 (slice tg.frame 1 (c.frameLen - 3))).toNat ∧
    tg.frame[c.frameLen - 1]? = some tg.endFlag ∧ intact tg.frame

/-- End to end (R201): a telegram whose ciphertext is a plaintext encrypted under the configured key and the telegram's own
nonce, fed byte by byte to an idle framer, raises exactly one event, on its last byte: `DECODED` of that plaintext, which is the
whole outcome of `FEED` (R74). -/
def Obligations.TelegramIsDecodedEndToEnd : Prop :=
  ∀ (s : State) (tg : Telegram) (pt : Bytes), cfgValid s.cfg → s.cfgKept → s.mode = .idle → tg.fits s.cfg →
    ctrXor s.cfg.key tg.nonce 2 pt = .result tg.ciphertext →
    execAll (feed tg.frame) s =
      .next { s with buf := [], pos := 0, prev := some tg.endFlag, session := some s.cfg,
                     trace := s.trace ++ List.replicate (s.cfg.frameLen - 1) .none ++ [.event (.decoded pt)] } ∧
    feedOutcome tg.frame s = [.event (.decoded pt)]

/-- The pure operations do not disturb the stream: issued anywhere among `RX` operations they change neither what a later `RX`
does nor its outcome (R103, and R9 for the other pure operations). -/
def Obligations.PureOperationsDoNotDisturbRx : Prop :=
  ∀ (i : Instr) (b : Byte) (s : State), i ≠ .reset → (∀ b', i ≠ .rx b') → ∃ (t u : State) (o o' : OpOutcome),
    exec (.rx b) s = .next t ∧ t.trace = s.trace ++ [o] ∧
    execAll [i, .rx b] s = .next u ∧ u.trace = s.trace ++ [o', o] ∧ { u with trace := t.trace } = t

/-! ### The host side (45_host_profile_decode.md) -/

/-- `PDECODE` (R190, R193, R194): an unsupported profile fails first, then a plaintext too short; otherwise the fields are
read at the ranges of the table. -/
def Obligations.PdecodeReadsTheProfileTable : Prop :=
  (∀ (code : Byte) (off : Int) (p : Bytes) (s : State), exec (.pdecode (.unsupported code) off p) s =
    .next { s with trace := s.trace ++ [.failure .unsupportedProfileError] }) ∧
  (∀ (off : Int) (p : Bytes) (s : State), p.length < 74 →
    exec (.pdecode .wn off p) s = .next { s with trace := s.trace ++ [.failure .malformedFrameError] }) ∧
  (∀ (off : Int) (p : Bytes) (s : State), p.length < 86 →
    exec (.pdecode .kn off p) s = .next { s with trace := s.trace ++ [.failure .malformedFrameError] }) ∧
  (∀ (off : Int) (p : Bytes) (s : State), 74 ≤ p.length →
    exec (.pdecode .wn off p) s = .next { s with trace := s.trace ++ [.value (.reading
      { aInWh := some (ube (slice p 35 39)), aOutWh := some (ube (slice p 40 44)),
        rInVarh := some (ube (slice p 45 49)), rOutVarh := some (ube (slice p 50 54)),
        pInW := some (ube (slice p 55 59)), pOutW := some (ube (slice p 60 64)),
        qInVar := some (ube (slice p 65 69)), qOutVar := some (ube (slice p 70 74)),
        timestamp := tsnorm (ube (slice p 22 24)) (ube (slice p 24 25)) (ube (slice p 25 26)) (ube (slice p 27 28))
          (ube (slice p 28 29)) (ube (slice p 29 30)) off })] }) ∧
  (∀ (off : Int) (p : Bytes) (s : State), 86 ≤ p.length →
    exec (.pdecode .kn off p) s = .next { s with trace := s.trace ++ [.value (.reading
      { aInWh := some (ube (slice p 57 61)), aOutWh := some (ube (slice p 62 66)),
        rInVarh := some (ube (slice p 67 71)), rOutVarh := some (ube (slice p 72 76)),
        pInW := some (ube (slice p 77 81)), pOutW := some (ube (slice p 82 86)), qInVar := none, qOutVar := none,
        timestamp := tsnorm (ube (slice p 51 53)) (ube (slice p 53 54)) (ube (slice p 54 55)) (ube (slice p 45 46))
          (ube (slice p 46 47)) (ube (slice p 47 48)) off })] })

/-- Absent fields (R192): under KN the two reactive powers of a Reading are `absent` whatever the plaintext holds, and under
WN no field is. -/
def Obligations.KnReactivePowerIsAbsent : Prop :=
  ∀ (p : Bytes) (off : Int) (r : Reading),
    (pdecode p .kn off = .result r → r.qInVar = none ∧ r.qOutVar = none) ∧
    (pdecode p .wn off = .result r → r.qInVar.isSome ∧ r.qOutVar.isSome)

/-- Each counter of a Reading is `absent` or a value below `2^32`, and every other value read from a plaintext fits its
range: `ube` of `n` bytes is below `256^n` (R191, R199). -/
def Obligations.ReadingCountersAreU32 : Prop :=
  (∀ p : Bytes, ube p < 256 ^ p.length) ∧
  ∀ (p : Bytes) (profile : Profile) (off : Int) (r : Reading), pdecode p profile off = .result r →
    ∀ c ∈ [r.aInWh, r.aOutWh, r.rInVarh, r.rOutVarh, r.pInW, r.pOutW, r.qInVar, r.qOutVar], ∀ v, c = some v → v < 2 ^ 32

/-- `TSNORM` (R195, R198): the format, only the hour shifted, for every operand value; and the source's example. -/
def Obligations.TsnormFormatsTheTimestamp : Prop :=
  (∀ (y mo d h mi se : Nat) (off : Int) (s : State), exec (.tsnorm y mo d h mi se off) s =
    .next { s with trace := s.trace ++ [.value (.text (dec y ++ ['-'] ++ dec2 mo ++ ['-'] ++ dec2 d ++ ['T'] ++
      dec2 ((h : Int) - off) ++ [':'] ++ dec2 mi ++ [':'] ++ dec2 se ++ ['Z']))] }) ∧
  tsnorm 2021 8 1 14 5 50 2 =
    ['2', '0', '2', '1', '-', '0', '8', '-', '0', '1', 'T', '1', '2', ':', '0', '5', ':', '5', '0', 'Z']

/-- The two number formats (R196): `dec(n)` has at least one character, decimal digits only, is worth `n`, and has no leading
zero but for 0 itself, which is the text `0`; `dec2` is padded to two characters, and a minus sign stands before the digits of the absolute value. -/
def Obligations.NumeralsAreShortestDecimal : Prop :=
  (∀ n : Nat, dec n ≠ [] ∧ (∀ c ∈ dec n, '0' ≤ c ∧ c ≤ '9') ∧
    (dec n).foldl (fun v c => v * 10 + (c.toNat - '0'.toNat)) 0 = n ∧ ((dec n).head? = some '0' → n = 0 ∧ dec n = ['0'])) ∧
  dec 0 = ['0'] ∧
  (∀ n : Nat, (n < 10 → dec2 n = '0' :: dec n) ∧ (10 ≤ n → dec2 n = dec n)) ∧
  ∀ n : Nat, 0 < n → dec2 (-(n : Int)) = '-' :: dec n

/-- `RXP b` (R200): the same state as `RX b`; where the event is `DECODED(pt)` the outcome is the host's `READING(r)` or
`FAIL(K)`, otherwise it is the outcome of the `RX`.
That `RXP` is one step, whose outcome is recorded in place of that of the `RX`, is log entry 20. -/
def Obligations.RxpComposesRxAndPdecode : Prop :=
  ∀ (b : Byte) (off : Int) (s : State), ∃ (t : State) (o : OpOutcome),
    exec (.rx b) s = .next t ∧ t.trace = s.trace ++ [o] ∧
    (∀ pt r, o = .event (.decoded pt) → pdecode pt s.cfg.profile off = .result r →
      execRxp b off s = .next { t with trace := s.trace ++ [.event (.reading r)] }) ∧
    (∀ pt k, o = .event (.decoded pt) → pdecode pt s.cfg.profile off = .raise k →
      execRxp b off s = .next { t with trace := s.trace ++ [.event (.fail k)] }) ∧
    ((∀ pt, o ≠ .event (.decoded pt)) → execRxp b off s = .next t)

/-- The source's end-to-end scenario (R201): a telegram built from a WN plaintext, fed byte by byte with `RXP` for its last
byte, yields the Reading of that plaintext and raises no failure event; its `a_in_wh` is the number of bytes 35 to 38.
That `RXP` is one step is log entry 20. -/
def Obligations.TelegramYieldsItsReading : Prop :=
  ∀ (s : State) (tg : Telegram) (pt : Bytes) (off : Int), cfgValid s.cfg → s.cfgKept → s.mode = .idle →
    tg.fits s.cfg → s.cfg.profile = .wn → 74 ≤ pt.length → ctrXor s.cfg.key tg.nonce 2 pt = .result tg.ciphertext →
    ∃ (t : State) (r : Reading), execAll (feed tg.frame.dropLast) s = .next t ∧ pdecode pt .wn off = .result r ∧
      r.aInWh = some (ube (slice pt 35 39)) ∧
      execRxp tg.endFlag off t =
        .next { s with buf := [], pos := 0, prev := some tg.endFlag, session := some s.cfg,
                       trace := s.trace ++ List.replicate (s.cfg.frameLen - 1) .none ++ [.event (.reading r)] }

/-- The responses of R71, status byte and payload, with the codes of R210 and R219: of byte strings that a `u16` length can
announce, and of ASCII texts (for the others see log entry 12). -/
def Obligations.ResponseEncoding : Prop :=
  OpOutcome.response .none = some [0x00] ∧
  (∀ b, OpOutcome.response (.value (.byte b)) = some [0x01, b]) ∧
  (∀ v : U16, ∃ hi lo : Byte, OpOutcome.response (.value (.word v)) = some [0x01, hi, lo] ∧
    v.toNat = hi.toNat * 256 + lo.toNat) ∧
  OpOutcome.response (.value (.bool true)) = some [0x01, 1] ∧
  OpOutcome.response (.value (.bool false)) = some [0x01, 0] ∧
  (∀ bs : Bytes, bs.length < 2 ^ 16 →
    OpOutcome.response (.value (.bytes bs)) = some (0x01 :: (be16 bs.length ++ bs)) ∧
    OpOutcome.response (.event (.decoded bs)) = some (0x02 :: (be16 bs.length ++ bs))) ∧
  (∀ t : Text, t.length < 2 ^ 16 → (∀ c ∈ t, c.toNat < 128) → OpOutcome.response (.value (.text t)) =
    some (0x01 :: (be16 t.length ++ t.map fun c => BitVec.ofNat 8 c.toNat))) ∧
  (∀ r : Reading, r.timestamp.length < 2 ^ 16 → (∀ c ∈ r.timestamp, c.toNat < 128) → OpOutcome.response (.value (.reading r)) =
    some (0x01 :: ([r.aInWh, r.aOutWh, r.rInVarh, r.rOutVarh, r.pInW, r.pOutW, r.qInVar, r.qOutVar].flatMap
      (fun c => (if c.isSome then 1 else 0) :: be32 (c.getD 0)) ++
      be16 r.timestamp.length ++ r.timestamp.map fun c => BitVec.ofNat 8 c.toNat))) ∧
  OpOutcome.response (.failure .checksumError) = some [0x81] ∧
  OpOutcome.response (.event (.fail .checksumError)) = some [0x81] ∧
  OpOutcome.response (.failure .unsupportedProfileError) = some [0x82] ∧
  OpOutcome.response (.failure .malformedFrameError) = some [0x83] ∧
  OpOutcome.response (.event (.fail .malformedFrameError)) = some [0x83] ∧
  [Reason.illegalCommand, .configInvalid, .badTrailerLength, .badKeyLength, .unverified, .counterWrap].map
    (fun r => OpOutcome.response (.refusal r)) =
    [some [0xFF, 1], some [0xFF, 2], some [0xFF, 3], some [0xFF, 4], some [0xFF, 5], some [0xFF, 6]]

/-! ### The invariant of R25 -/

/-- The invariant of R25 holds right after reset. -/
def Obligations.ResetMeetsTheInvariant : Prop := State.reset.Inv

/-- Every step keeps the invariant of R25 and the canonical form of the buffer, from every state that meets it, whatever the
configuration and whatever is issued. -/
def Obligations.EveryStepKeepsTheInvariant : Prop :=
  ∀ s t : State, s.Inv → step s = .next t → t.Inv

/-- The machine never stops: a step answers a next state, from every state.
That it goes on after a failure is R217 and log entry 7; that a refused operation, which R10 has a model treat as no step, is
a step that records its refusal is log entry 6; that a step with nothing pending leaves the state as it is is R172 and log
entry 5. -/
def Obligations.EveryStateCanStep : Prop := ∀ s : State, s.CanStep

/-! ### The rounds of the cipher; the configuration of a session without a `RESET` -/

/-- The cipher is the composition of R122 of the four transformations, for every key of 16, 24 or 32 bytes and every block:
the key's first four words are added, `Nr - 1` rounds follow, and a last one without `MixColumns`. -/
def Obligations.AesComposesItsRounds : Prop :=
  ∀ (key block : Bytes) (nr : Nat), (key.length, nr) ∈ [(16, 10), (24, 12), (32, 14)] → block.length = 16 →
    ∃ st : Nat → AesState, st 0 = (AesState.load block).addRoundKey (keyExpansion key) 0 ∧
      (∀ r, 1 ≤ r → r < nr →
        st r = (st (r - 1)).subBytes.shiftRows.mixColumns.addRoundKey (keyExpansion key) r) ∧
      aes key block = ((st (nr - 1)).subBytes.shiftRows.addRoundKey (keyExpansion key) nr).store ∧
      (aes key block).length = 16

/-- In a session created without a `RESET`, a valid configuration supplied before the first `RX` needs none: `DECRYPT` does
with it what it does after a `RESET` (R242: "but no `RESET`"; R240), and an `RX` is accepted under it.
That this holds of the first record supplied and of any later one before that `RX` is log entry 2. -/
def Obligations.ConfigurationBeforeTheFirstRxNeedsNoReset : Prop :=
  ∀ (s : State) (c : Cfg), s.session = none → cfgValid c →
    (∀ key frame, ∃ o, o ≠ .refusal .configInvalid ∧
      exec (.decrypt key frame) (s.supply c) = .next { s with cfg := c, trace := s.trace ++ [o] } ∧
      execAll [.reset, .decrypt key frame] (s.supply c) =
        .next { s with mode := .idle, buf := [], pos := 0, prev := none, cfg := c, session := some c,
                       trace := s.trace ++ [.none, o] }) ∧
    (s.mode = .idle → s.prev = none → ∀ b, exec (.rx b) (s.supply c) =
      .next { s with cfg := c, prev := some b, session := some c, trace := s.trace ++ [.none] })
end

