-- ==== Sys2Proof/Laws/Aes.lean ====
section
/-! SUPPORT. The key schedule: how many words the loop makes. -/

namespace Sys2Proof.Machine

open Sys2Proof

/-- The loop of R116 makes `n` words more. -/
theorem length_expandLoop (nk n i : Nat) (newest : List Word4) :
    (expandLoop nk n i newest).length = n + newest.length := by
  induction n generalizing i newest with
  | zero => simp [expandLoop]
  | succ n ih => simp only [expandLoop, ih, List.length_cons]; omega

/-- The loop of R116 keeps the words it starts from, at the old end of its list. -/
theorem expandLoop_suffix (nk n i : Nat) (newest : List Word4) :
    ∃ made, expandLoop nk n i newest = made ++ newest ∧ made.length = n := by
  induction n generalizing i newest with
  | zero => exact ⟨[], rfl, rfl⟩
  | succ n ih =>
    obtain ⟨made, h, hl⟩ := ih (i + 1) ((newest.getD (nk - 1) ⟨0, 0, 0, 0⟩).xor
      (scheduleTemp nk i (newest.headD ⟨0, 0, 0, 0⟩)) :: newest)
    exact ⟨made ++ [_], by simp only [expandLoop]; rw [h, List.append_assoc]; rfl, by simp [hl]⟩

/-- A block has 16 bytes. -/
theorem AesState.length_store (s : AesState) : s.store.length = 16 := rfl

end Sys2Proof.Machine
end

