-- ==== Sys2Proof/Laws/Crc.lean ====
section
/-! SUPPORT. Slices, the mirror, the two trailer bytes, and what `verify` answers. -/

namespace Sys2Proof

/-- The length of a slice whose bounds are in range (00_scope.md section 5). -/
theorem length_slice {s : Bytes} {a b : Nat} (h : b ≤ s.length) : (slice s a b).length = b - a := by
  simp [slice, Nat.min_eq_left h]

/-- A slice that ends where the first part of the string ends does not see the rest. -/
theorem slice_append_left {s t : Bytes} {a b : Nat} (h : b ≤ s.length) : slice (s ++ t) a b = slice s a b := by
  simp [slice, List.take_append_of_le_length h]

/-- The slice that is exactly the middle part of a string. -/
theorem slice_append_middle (s t u : Bytes) : slice (s ++ t ++ u) s.length (s.length + t.length) = t := by
  rw [slice, show s.length + t.length = (s ++ t).length by simp, List.take_left, List.drop_left]

end Sys2Proof

namespace Sys2Proof.Machine

open Sys2Proof

/-- Bit `i` of the mirrored byte is bit `7 - i` of the byte (R90). -/
theorem byteMirror_bit (b : Byte) : ∀ i < 8, (byteMirror b).getLsbD i = b.getLsbD (7 - i) := by
  revert b; decide +kernel

/-- Mirroring twice returns the byte (R90). -/
theorem byteMirror_byteMirror (b : Byte) : byteMirror (byteMirror b) = b := by
  revert b; decide +kernel

/-- The number of the two bytes `be16` writes is the number itself (R43). -/
theorem trailerValue_be16 (v : U16) : trailerValue (be16 v.toNat) = v.toNat := by
  have := v.isLt
  simp only [trailerValue, be16, List.getD_cons_zero, List.getD_cons_succ, BitVec.toNat_ofNat]
  omega

/-- Two trailer bytes are determined by their number. -/
theorem trailerValue_injective {a b c d : Byte} (h : trailerValue [a, b] = trailerValue [c, d]) : a = c ∧ b = d := by
  simp only [trailerValue, List.getD_cons_zero, List.getD_cons_succ] at h
  have := b.isLt
  have := d.isLt
  exact ⟨BitVec.eq_of_toNat_eq (by omega), BitVec.eq_of_toNat_eq (by omega)⟩

/-- `verify` with another trailer length is refused (R98). -/
theorem verify_of_tl_ne {tl : Nat} (h : tl ≠ 2) (input : Bytes) (skip cut : Nat) :
    verify input skip tl cut = .refuse .badTrailerLength := by
  simp [verify, h]

/-- `verify` of an input too short for the slices fails (R98). -/
theorem verify_of_short {input : Bytes} {skip cut : Nat} (h : input.length < skip + 2 + cut) :
    verify input skip 2 cut = .raise .malformedFrameError := by
  simp [verify, h]

/-- `verify` of an input in its parts: what is skipped, the data, the two trailer bytes, what is cut (R98). -/
theorem verify_parts (skipped data cutOff : Bytes) (g0 g1 : Byte) :
    verify (skipped ++ data ++ [g0, g1] ++ cutOff) skipped.length 2 cutOff.length =
      .result (decide ((calcCrc16 data).toNat = trailerValue [g0, g1])) := by
  have hn : ¬ (skipped ++ data ++ [g0, g1] ++ cutOff).length < skipped.length + 2 + cutOff.length := by
    simp; omega
  have h1 : (skipped ++ data ++ [g0, g1] ++ cutOff).length - 2 - cutOff.length = skipped.length + data.length := by
    simp; omega
  have h2 : (skipped ++ data ++ [g0, g1] ++ cutOff).length - cutOff.length = (skipped ++ data).length + 2 := by
    simp; omega
  have h3 : slice (skipped ++ data ++ [g0, g1] ++ cutOff) skipped.length (skipped.length + data.length) = data := by
    simpa using slice_append_middle skipped data ([g0, g1] ++ cutOff)
  have h4 : slice (skipped ++ data ++ [g0, g1] ++ cutOff) (skipped.length + data.length)
      ((skipped ++ data).length + 2) = [g0, g1] := by
    simpa using slice_append_middle (skipped ++ data) [g0, g1] cutOff
  simp only [verify, hn, h1, h2, h3, h4, ne_eq, not_true_eq_false, if_false]

/-- The CRC of an extended string continues from the register of its first part (R96). -/
theorem calcCrc16_append (xs ys : Bytes) :
    calcCrc16 (xs ++ ys) = crcFinal (ys.foldl crcByteStep (xs.foldl crcByteStep crcInit)) := by
  simp [calcCrc16]

end Sys2Proof.Machine
end

