-- ==== Sys2Proof/Laws/CrcForms.lean ====
section
/-! SUPPORT. The bit step of the CRC against its folded form, and that no step loses information. -/

namespace Sys2Proof.Machine

open Sys2Proof

/-- Bit 15 of a 16-bit value, as the mask of R93 tests it. -/
theorem and_8000_ne_zero_iff (v : U16) : v &&& 0x8000 ≠ 0 ↔ v.getLsbD 15 = true := by
  rw [show (0x8000 : U16) = BitVec.twoPow 16 15 from rfl, BitVec.and_twoPow]
  cases v.getLsbD 15 <;> decide

/-- One bit step on the register and the working value is one shift of their XOR (R101 (a)). -/
theorem crcBitStep_folded (st : U16 × U16) :
    (crcBitStep st).1 ^^^ (crcBitStep st).2 = foldedBitStep (st.1 ^^^ st.2) := by
  simp only [crcBitStep, foldedBitStep, crcPoly]
  split
  · simp [BitVec.shiftLeft_xor_distrib]
    ac_rfl
  · simp [BitVec.shiftLeft_xor_distrib]

/-- The working value is shifted, whatever the register (R93). -/
theorem crcBitSteps_snd (n : Nat) (st : U16 × U16) : (crcBitSteps n st).2 = st.2 <<< n := by
  induction n generalizing st with
  | zero => simp [crcBitSteps]
  | succ n ih =>
    rw [crcBitSteps, ih]
    simp only [crcBitStep]
    rw [← BitVec.shiftLeft_add, Nat.add_comm]

/-- Several bit steps are as many shifts of the XOR. -/
theorem crcBitSteps_folded (n : Nat) (st : U16 × U16) :
    (crcBitSteps n st).1 ^^^ (crcBitSteps n st).2 = foldedBitStep^[n] (st.1 ^^^ st.2) := by
  induction n generalizing st with
  | zero => rfl
  | succ n ih => rw [crcBitSteps, ih, Function.iterate_succ_apply, crcBitStep_folded]

/-- After a byte the working value is 0 (R94). -/
theorem crcWorking_shift (d : Byte) : crcWorking d <<< 8 = 0 := by
  revert d; decide +kernel

/-- The byte step in its folded form. -/
theorem crcByteStep_eq (crc : U16) (d : Byte) : crcByteStep crc d = foldedByteStep crc d := by
  have h := crcBitSteps_folded 8 (crc, crcWorking d)
  rw [crcBitSteps_snd, crcWorking_shift] at h
  simpa [crcByteStep, foldedByteStep] using h

/-- The folded bit step undone: bit 0 of the result is bit 15 of the register, because the polynomial is odd. -/
def unfoldBitStep (v : U16) : U16 := if v &&& 1 ≠ 0 then ((v ^^^ crcPoly) >>> 1) ||| 0x8000 else v >>> 1

theorem unfoldBitStep_foldedBitStep (a : U16) : unfoldBitStep (foldedBitStep a) = a := by
  have hl : ∀ v : U16, v &&& 1 ≠ 0 ↔ v.getLsbD 0 = true := fun v => by
    rw [show (1 : U16) = BitVec.twoPow 16 0 from rfl, BitVec.and_twoPow]
    cases v.getLsbD 0 <;> decide
  simp only [unfoldBitStep, foldedBitStep, crcPoly, and_8000_ne_zero_iff, hl]
  apply BitVec.eq_of_getLsbD_eq
  intro i hi
  by_cases h : a.getLsbD 15 = true
  · rw [if_pos h, if_pos (by simp), BitVec.xor_assoc, BitVec.xor_self, BitVec.xor_zero, BitVec.getLsbD_or,
      BitVec.getLsbD_ushiftRight, BitVec.getLsbD_shiftLeft]
    rcases Nat.lt_or_ge i 15 with h1 | h1
    · interval_cases i <;> simp
    · have : i = 15 := by omega
      subst this; simp [h]
  · rw [if_neg h, if_neg (by simp), BitVec.getLsbD_ushiftRight, BitVec.getLsbD_shiftLeft]
    rcases Nat.lt_or_ge i 15 with h1 | h1
    · simp; omega
    · have : i = 15 := by omega
      subst this; simp at h; simp [h]

/-- No bit step loses information. -/
theorem foldedBitStep_injective : Function.Injective foldedBitStep :=
  Function.LeftInverse.injective unfoldBitStep_foldedBitStep

/-- No byte step loses information about the register. -/
theorem crcByteStep_injective (d : Byte) : Function.Injective fun crc => crcByteStep crc d := fun a b h => by
  simp only [crcByteStep_eq, foldedByteStep] at h
  simpa using congrArg (· ^^^ crcWorking d) (foldedBitStep_injective.iterate 8 h)

end Sys2Proof.Machine
end

