-- ==== Sys2Proof/Laws/Ctr.lean ====
section
/-! SUPPORT. Counter mode in closed form: byte `j` is XORed with byte `j mod 16` of keystream block `j / 16`, and the one way
in which it is refused. -/

namespace Sys2Proof.Machine

open Sys2Proof

/-- The keystream byte for data byte `j` (R142), as if the counter were unbounded. -/
def keystreamByte (key nonce : Bytes) (ctr0 j : Nat) : Byte :=
  (aes key (nonce ++ be32 (ctr0 + j / 16))).getD (j % 16) 0

/-- No counter block beyond `0xFFFFFFFF` is needed for the data bytes `j, .., j + n - 1` (R143). -/
abbrev CounterFits (ctr0 j n : Nat) : Prop := ∀ k < n, ctr0 + (j + k) / 16 ≤ 0xFFFFFFFF

theorem keystreamBlock_of_le {ctr0 i : Nat} (h : ctr0 + i ≤ 0xFFFFFFFF) (key nonce : Bytes) :
    keystreamBlock key nonce ctr0 i = some (aes key (nonce ++ be32 (ctr0 + i))) := by
  simp only [keystreamBlock, counterBlock]
  rw [if_neg (by omega)]
  rfl

theorem keystreamBlock_of_gt {ctr0 i : Nat} (h : 0xFFFFFFFF < ctr0 + i) (key nonce : Bytes) :
    keystreamBlock key nonce ctr0 i = none := by
  simp only [keystreamBlock, counterBlock]
  rw [if_pos h]
  rfl

/-- The loop from data byte `j` on, when the block in use is the block of byte `j` (R142). -/
theorem ctrLoop_eq (key nonce : Bytes) (ctr0 : Nat) (ds : Bytes) :
    ∀ (j : Nat) (ks : Bytes), (j % 16 ≠ 0 → ks = aes key (nonce ++ be32 (ctr0 + j / 16))) →
      CounterFits ctr0 j ds.length →
      ctrLoop key nonce ctr0 j ks ds = some (ds.mapIdx fun k d => d ^^^ keystreamByte key nonce ctr0 (j + k)) := by
  induction ds with
  | nil => intros; rfl
  | cons d ds ih =>
    intro j ks hks hfit
    have h0 : ctr0 + j / 16 ≤ 0xFFFFFFFF := by simpa using hfit 0 (by simp)
    have hblock : (if j % 16 = 0 then keystreamBlock key nonce ctr0 (j / 16) else some ks) =
        some (aes key (nonce ++ be32 (ctr0 + j / 16))) := by
      split
      · exact keystreamBlock_of_le h0 key nonce
      · rw [hks ‹_›]
    have hnext : CounterFits ctr0 (j + 1) ds.length := fun k hk => by
      have := hfit (k + 1) (by simpa using hk)
      rwa [show j + (k + 1) = j + 1 + k by omega] at this
    have hks' : (j + 1) % 16 ≠ 0 → aes key (nonce ++ be32 (ctr0 + j / 16)) =
        aes key (nonce ++ be32 (ctr0 + (j + 1) / 16)) := fun h => by
      rw [show (j + 1) / 16 = j / 16 by omega]
    simp only [ctrLoop, hblock, ih (j + 1) _ hks' hnext, Option.map_some, List.mapIdx_cons]
    simp [keystreamByte, Nat.add_assoc, Nat.add_comm 1]

/-- The loop meets a counter block beyond the last when one of the data bytes needs it (R143). -/
theorem ctrLoop_none (key nonce : Bytes) (ctr0 : Nat) (ds : Bytes) :
    ∀ (j : Nat) (ks : Bytes), (j % 16 = 0 ∨ ctr0 + j / 16 ≤ 0xFFFFFFFF) →
      (∃ k < ds.length, 0xFFFFFFFF < ctr0 + (j + k) / 16) → ctrLoop key nonce ctr0 j ks ds = none := by
  induction ds with
  | nil => rintro j ks - ⟨k, hk, -⟩; simp at hk
  | cons d ds ih =>
    rintro j ks hj ⟨k, hk, hgt⟩
    by_cases h0 : ctr0 + j / 16 ≤ 0xFFFFFFFF
    · have hrest : ∀ ks', ctrLoop key nonce ctr0 (j + 1) ks' ds = none := fun ks' => by
        have hk0 : k ≠ 0 := by rintro rfl; simp at hgt; omega
        refine ih (j + 1) ks' (by omega) ⟨k - 1, by simp at hk; omega, ?_⟩
        rwa [show j + 1 + (k - 1) = j + k by omega]
      simp only [ctrLoop, hrest]
      split <;> rfl
    · have hz : j % 16 = 0 := by omega
      simp [ctrLoop, hz, keystreamBlock_of_gt (show 0xFFFFFFFF < ctr0 + j / 16 by omega)]

/-- `ctr_xor` in closed form when the counter fits (R142). -/
theorem ctrXor_eq {key nonce : Bytes} {ctr0 : Nat} {data : Bytes} (h : CounterFits ctr0 0 data.length) :
    ctrXor key nonce ctr0 data = .result (data.mapIdx fun j d => d ^^^ keystreamByte key nonce ctr0 j) := by
  simp only [ctrXor, ctrLoop_eq key nonce ctr0 data 0 [] (by simp) h]
  simp

/-- `ctr_xor` is refused when the counter does not fit (R143). -/
theorem ctrXor_refused {key nonce : Bytes} {ctr0 : Nat} {data : Bytes} (h : ¬CounterFits ctr0 0 data.length) :
    ctrXor key nonce ctr0 data = .refuse .counterWrap := by
  have : ∃ k < data.length, 0xFFFFFFFF < ctr0 + (0 + k) / 16 := by
    simpa [CounterFits] using h
  simp only [ctrXor, ctrLoop_none key nonce ctr0 data 0 [] (by simp) this]

/-- A data string needs no counter block beyond the last exactly when its last byte does not (R143). -/
theorem counterFits_iff {ctr0 n : Nat} (hn : 0 < n) : CounterFits ctr0 0 n ↔ ctr0 + (n - 1) / 16 ≤ 0xFFFFFFFF := by
  constructor
  · intro h
    simpa using h (n - 1) (by omega)
  · intro h k hk
    have : (0 + k) / 16 ≤ (n - 1) / 16 := Nat.div_le_div_right (by omega)
    omega

/-- `decrypt_frame` past its two checks (R146). -/
theorem decryptFrame_eq {cfg : Cfg} {frame key : Bytes} (hk : keyLengthOk key) (hl : cfg.ctOff + 3 ≤ frame.length) :
    decryptFrame cfg frame key = ctrXor key (frameNonce cfg frame) ctrInit (frameCiphertext cfg frame) := by
  rw [decryptFrame, if_neg (not_not.mpr hk), if_neg (by omega)]

end Sys2Proof.Machine
end

