-- ==== Sys2Proof/Laws/Decode.lean ====
section
/-! SUPPORT. Operand types: what is encoded is read back, and the lengths of R70. -/

namespace Sys2Proof

theorem toNat_ofNat8 {n : Nat} (h : n < 2 ^ 8) : (BitVec.ofNat 8 n).toNat = n := by
  simpa using Nat.mod_eq_of_lt h

/-- The two bytes of `be16` give the number back (R67). -/
theorem be16_value {n : Nat} (h : fitsU16 n) :
    (BitVec.ofNat 8 (n / 256)).toNat * 256 + (BitVec.ofNat 8 n).toNat = n := by
  simp only [fitsU16] at h
  rw [toNat_ofNat8 (by omega), BitVec.toNat_ofNat]
  omega

theorem s8Value_s8Byte {z : Int} (h : fitsS8 z) : s8Value (s8Byte z) = z := by
  obtain ⟨h1, h2⟩ := h
  simp only [s8Value, s8Byte, BitVec.toNat_ofInt]
  split <;> omega

theorem s8Byte_s8Value (b : Byte) : s8Byte (s8Value b) = b := by
  revert b; decide

theorem s8Value_fits (b : Byte) : fitsS8 (s8Value b) := by
  revert b; decide

theorem Profile.ofByte_toByte {p : Profile} (h : p.wellFormed) : Profile.ofByte p.toByte = p := by
  cases p with
  | wn => rfl
  | kn => rfl
  | unsupported code =>
    have h0 : code ≠ 0 := by rintro rfl; simp [Profile.wellFormed] at h
    have h1 : code ≠ 1 := by rintro rfl; simp [Profile.wellFormed] at h
    show (if code = 0 then Profile.wn else if code = 1 then .kn else .unsupported code) = _
    rw [if_neg h0, if_neg h1]

theorem Profile.toByte_ofByte (b : Byte) : (Profile.ofByte b).toByte = b := by
  revert b; decide

theorem Profile.ofByte_wellFormed (b : Byte) : (Profile.ofByte b).wellFormed := by
  rw [Profile.ofByte]
  split
  · trivial
  · split
    · trivial
    · rename_i h0 h1
      have h0' : b.toNat ≠ 0 := fun h => h0 (BitVec.eq_of_toNat_eq (by simpa using h))
      have h1' : b.toNat ≠ 1 := fun h => h1 (BitVec.eq_of_toNat_eq (by simpa using h))
      show 2 ≤ b.toNat
      omega

/-- Reading an operand that stands encoded at the front gives it back, and the bytes after it (R67). -/
theorem OperandType.decode_encode {o : Operand} (h : o.fits) (rest : Bytes) :
    o.type.decode (o.encode ++ rest) = some (o, rest) := by
  cases o with
  | u8 n => simp [Operand.type, Operand.encode, OperandType.decode, Nat.mod_eq_of_lt (show n < 256 from h)]
  | s8 z => simp [Operand.type, Operand.encode, OperandType.decode, s8Value_s8Byte h]
  | u16 n =>
    show some (Operand.u16 _, rest) = _
    rw [be16_value h]
  | bytes bs =>
    simp only [Operand.type, Operand.encode, be16, List.cons_append, List.nil_append, OperandType.decode,
      be16_value h]
    simp

/-- Reading a list of operands that stand encoded at the front gives it back, and the bytes after it (R66). -/
theorem decodeOperands_encode {os : List Operand} (h : ∀ o ∈ os, o.fits) (rest : Bytes) :
    decodeOperands (os.map Operand.type) (encodeOperands os ++ rest) = some (os, rest) := by
  induction os with
  | nil => rfl
  | cons o os ih =>
    have ih := ih fun o' ho' => h o' (by simp [ho'])
    have ho := OperandType.decode_encode (h o (by simp)) (encodeOperands os ++ rest)
    simp only [encodeOperands] at ih ho
    simp [decodeOperands, encodeOperands, ho, ih]

/-- The other direction: what is read from the front is what stands encoded there, and it is in range (R67). -/
theorem OperandType.encode_decode {t : OperandType} {bs rest : Bytes} {o : Operand}
    (h : t.decode bs = some (o, rest)) : o.type = t ∧ o.fits ∧ o.encode ++ rest = bs := by
  have hb : ∀ b : Byte, BitVec.ofNat 8 b.toNat = b := fun b => by simp
  have h16 : ∀ b0 b1 : Byte, be16 (b0.toNat * 256 + b1.toNat) = [b0, b1] := fun b0 b1 => by
    have hd : (b0.toNat * 256 + b1.toNat) / 256 = b0.toNat := by have := b1.isLt; omega
    have hm : BitVec.ofNat 8 (b0.toNat * 256 + b1.toNat) = b1 := by
      apply BitVec.eq_of_toNat_eq
      have := b1.isLt
      rw [BitVec.toNat_ofNat]
      omega
    simp only [be16, hd, hm, hb]
  have hlt : ∀ b0 b1 : Byte, b0.toNat * 256 + b1.toNat < 2 ^ 16 := fun b0 b1 => by
    have := b0.isLt; have := b1.isLt; omega
  cases t with
  | u8 =>
    rcases bs with _ | ⟨b, bs⟩
    · cases h
    · cases h; exact ⟨rfl, b.isLt, by simp [Operand.encode]⟩
  | s8 =>
    rcases bs with _ | ⟨b, bs⟩
    · cases h
    · cases h; exact ⟨rfl, s8Value_fits b, by simp [Operand.encode, s8Byte_s8Value]⟩
  | u16 =>
    rcases bs with _ | ⟨b0, _ | ⟨b1, bs⟩⟩
    · cases h
    · cases h
    · cases h; exact ⟨rfl, hlt b0 b1, by simp [Operand.encode, h16]⟩
  | bytes =>
    rcases bs with _ | ⟨b0, _ | ⟨b1, bs⟩⟩
    · cases h
    · cases h
    · simp only [OperandType.decode] at h
      split at h
      · rename_i hn
        cases h
        have hl : (bs.take (b0.toNat * 256 + b1.toNat)).length = b0.toNat * 256 + b1.toNat := by simpa using hn
        refine ⟨rfl, ?_, ?_⟩
        · show (bs.take _).length < 2 ^ 16
          rw [hl]; exact hlt b0 b1
        · simp only [Operand.encode, hl, h16]; simp
      · cases h

/-- The other direction for a list of operands (R66). -/
theorem encodeOperands_decode {ts : List OperandType} {bs rest : Bytes} {os : List Operand}
    (h : decodeOperands ts bs = some (os, rest)) :
    os.map Operand.type = ts ∧ (∀ o ∈ os, o.fits) ∧ encodeOperands os ++ rest = bs := by
  induction ts generalizing bs os with
  | nil => cases h; simp [encodeOperands]
  | cons t ts ih =>
    simp only [decodeOperands] at h
    split at h
    · cases h
    · rename_i o r ho
      split at h
      · cases h
      · rename_i os' r' hos
        cases h
        obtain ⟨h1, h2, h3⟩ := OperandType.encode_decode ho
        obtain ⟨g1, g2, g3⟩ := ih hos
        refine ⟨by simp [h1, g1], by simpa [h2] using g2, ?_⟩
        rw [← h3, ← g3]
        simp [encodeOperands]

/-- The length of an encoded operand, whatever follows it (R70). -/
theorem OperandType.length_encode {o : Operand} (h : o.fits) (rest : Bytes) :
    o.type.length (o.encode ++ rest) = o.encode.length := by
  cases o with
  | bytes bs =>
    show 2 + ((BitVec.ofNat 8 (bs.length / 256)).toNat * 256 + (BitVec.ofNat 8 bs.length).toNat) = _
    rw [be16_value h]
    simp [Operand.encode, be16]; omega
  | _ => rfl

/-- The length of encoded operands, whatever follows them (R70). -/
theorem operandsLength_encode {os : List Operand} (h : ∀ o ∈ os, o.fits) (rest : Bytes) :
    operandsLength (os.map Operand.type) (encodeOperands os ++ rest) = (encodeOperands os).length := by
  induction os with
  | nil => rfl
  | cons o os ih =>
    have ih := ih fun o' ho' => h o' (by simp [ho'])
    have ho := OperandType.length_encode (h o (by simp)) (encodeOperands os ++ rest)
    simp only [encodeOperands] at ih ho
    simp [operandsLength, encodeOperands, ho, ih]

@[simp] theorem Opcode.ofByte_code (op : Opcode) : Opcode.ofByte op.code = some op := by
  cases op <;> decide

/-- An opcode read from a byte is the opcode of that byte (R68). -/
theorem Opcode.code_of_ofByte {b : Byte} {op : Opcode} (h : Opcode.ofByte b = some op) : op.code = b := by
  simpa using List.find?_some h

/-- No two rows of the opcode map have the same opcode (R68). -/
theorem Opcode.codes_distinct : Opcode.all.Pairwise fun a b => a.code ≠ b.code := by decide

end Sys2Proof
end

