-- ==== Sys2Proof/Laws/Memory.lean ====
section
/-! SUPPORT. The frame buffer: reads after an append, the canonical form, and the buffer as a byte string. -/

namespace Sys2Proof.Machine

open Sys2Proof

@[simp] theorem Memory.length_append (m : Memory) (b : Byte) : (m.append b).length = m.length + 1 := by
  simp [Memory.append]

@[simp] theorem Memory.bytes_append (m : Memory) (b : Byte) : (m.append b).bytes = m.bytes ++ [b] := by
  simp [Memory.append, Memory.bytes]

@[simp] theorem Memory.bytes_nil : Memory.bytes [] = [] := rfl

@[simp] theorem Memory.length_bytes (m : Memory) : m.bytes.length = m.length := by
  simp [Memory.bytes]

/-- The empty buffer is in canonical form. -/
theorem Memory.wf_nil : Memory.wf [] := rfl

/-- An append keeps the canonical form: the only write of the block keeps it. -/
theorem Memory.wf_append {m : Memory} (h : m.wf) (b : Byte) : (m.append b).wf := by
  simp only [Memory.wf, Memory.append, List.map_append, List.length_append, List.map_cons, List.map_nil,
    List.length_singleton, List.range_succ] at h ⊢
  rw [h]

/-- Appending a byte string, one byte after the other, keeps the canonical form. -/
theorem Memory.wf_foldl {m : Memory} (h : m.wf) (bs : Bytes) : Memory.wf (bs.foldl Memory.append m) := by
  induction bs generalizing m with
  | nil => exact h
  | cons b bs ih => exact ih (Memory.wf_append h b)

theorem Memory.bytes_foldl (m : Memory) (bs : Bytes) : Memory.bytes (bs.foldl Memory.append m) = m.bytes ++ bs := by
  induction bs generalizing m with
  | nil => simp
  | cons b bs ih => simp [ih]

theorem Memory.length_foldl (m : Memory) (bs : Bytes) :
    (bs.foldl Memory.append m).length = m.length + bs.length := by
  induction bs generalizing m with
  | nil => simp
  | cons b bs ih => simp [ih]; omega

/-- The buffer made of a byte string is in canonical form. -/
theorem Memory.wf_ofBytes (bs : Bytes) : (Memory.ofBytes bs).wf := Memory.wf_foldl Memory.wf_nil bs

@[simp] theorem Memory.bytes_ofBytes (bs : Bytes) : (Memory.ofBytes bs).bytes = bs := by
  simpa [Memory.ofBytes] using Memory.bytes_foldl [] bs

@[simp] theorem Memory.length_ofBytes (bs : Bytes) : (Memory.ofBytes bs).length = bs.length := by
  simpa [Memory.ofBytes] using Memory.length_foldl [] bs

/-- In canonical form the listed addresses rise strictly. -/
theorem Memory.rising_of_wf {m : Memory} (h : m.wf) : (m.map Prod.fst).Pairwise (· < ·) := by
  rw [show m.map Prod.fst = List.range m.length from h]
  exact List.pairwise_lt_range

/-- Reading a list of cells whose addresses count up from `a`. -/
theorem Memory.read_of_range' (m : Memory) (a : Nat) (h : m.map Prod.fst = List.range' a m.length) (i : Nat) :
    m.read (a + i) = m.bytes[i]? := by
  induction m generalizing a i with
  | nil => simp [Memory.read, Memory.bytes]
  | cons c m ih =>
    obtain ⟨a', b⟩ := c
    simp only [List.map_cons, List.length_cons, List.range'_succ, List.cons.injEq] at h
    obtain ⟨rfl, h⟩ := h
    cases i with
    | zero => simp [Memory.read, Memory.bytes]
    | succ i =>
      have := ih (a' + 1) h i
      rw [show a' + 1 + i = a' + (i + 1) by omega] at this
      simpa [Memory.read, Memory.bytes] using this

/-- In canonical form the byte at an address is the byte of the byte string at that index. -/
theorem Memory.read_eq_bytes {m : Memory} (h : m.wf) (a : Nat) : m.read a = m.bytes[a]? := by
  have := Memory.read_of_range' m 0 (by rw [← List.range_eq_range']; exact h) a
  simpa using this

/-- Two canonical buffers that hold the same byte string are the same data. -/
theorem Memory.ext_of_wf {m m' : Memory} (h : m.wf) (h' : m'.wf) (hb : m.bytes = m'.bytes) : m = m' := by
  have hl : m.length = m'.length := by simpa using congrArg List.length hb
  have hf : m.map Prod.fst = m'.map Prod.fst := by
    rw [show m.map Prod.fst = List.range m.length from h, show m'.map Prod.fst = List.range m'.length from h', hl]
  have hz : (m.map Prod.fst).zip (m.map Prod.snd) = (m'.map Prod.fst).zip (m'.map Prod.snd) := by
    rw [hf, show m.map Prod.snd = m'.map Prod.snd from hb]
  have unzip_zip : ∀ l : Memory, (l.map Prod.fst).zip (l.map Prod.snd) = l := fun l => by
    induction l with
    | nil => rfl
    | cons c l ih => simp [ih]
  rw [← unzip_zip m, hz, unzip_zip]

/-- The byte just appended is read at the address it was appended at. -/
theorem Memory.read_append_self {m : Memory} (h : m.wf) (b : Byte) : (m.append b).read m.length = some b := by
  rw [Memory.read_eq_bytes (Memory.wf_append h b), Memory.bytes_append]
  simp [← Memory.length_bytes]

/-- An append leaves every other address alone. -/
theorem Memory.read_append_of_ne {m : Memory} (h : m.wf) (b : Byte) {a : Nat} (ha : a ≠ m.length) :
    (m.append b).read a = m.read a := by
  rw [Memory.read_eq_bytes (Memory.wf_append h b), Memory.read_eq_bytes h, Memory.bytes_append]
  rw [← Memory.length_bytes] at ha
  rcases Nat.lt_or_gt_of_ne ha with hlt | hgt
  · exact List.getElem?_append_left hlt
  · rw [List.getElem?_eq_none (by simp; simpa using hgt), List.getElem?_eq_none (by simpa using hgt.le)]

end Sys2Proof.Machine
end

