-- ==== Sys2Proof/Laws/State.lean ====
section
/-! SUPPORT. One lemma per field per update of the state, each true by `rfl`, so that no later proof unfolds a record
update. -/

namespace Sys2Proof.Machine

open Sys2Proof

variable (s : State)

/-! ### `answer` -/

@[simp] theorem State.answer_mode (o : OpOutcome) : (s.answer o).mode = s.mode := rfl
@[simp] theorem State.answer_buf (o : OpOutcome) : (s.answer o).buf = s.buf := rfl
@[simp] theorem State.answer_pos (o : OpOutcome) : (s.answer o).pos = s.pos := rfl
@[simp] theorem State.answer_prev (o : OpOutcome) : (s.answer o).prev = s.prev := rfl
@[simp] theorem State.answer_cfg (o : OpOutcome) : (s.answer o).cfg = s.cfg := rfl
@[simp] theorem State.answer_session (o : OpOutcome) : (s.answer o).session = s.session := rfl
@[simp] theorem State.answer_inputs (o : OpOutcome) : (s.answer o).inputs = s.inputs := rfl
@[simp] theorem State.answer_trace (o : OpOutcome) : (s.answer o).trace = s.trace ++ [o] := rfl

/-! ### `raise` -/

@[simp] theorem State.raise_mode (k : Failure) : (s.raise k).mode = s.mode := rfl
@[simp] theorem State.raise_buf (k : Failure) : (s.raise k).buf = s.buf := rfl
@[simp] theorem State.raise_pos (k : Failure) : (s.raise k).pos = s.pos := rfl
@[simp] theorem State.raise_prev (k : Failure) : (s.raise k).prev = s.prev := rfl
@[simp] theorem State.raise_cfg (k : Failure) : (s.raise k).cfg = s.cfg := rfl
@[simp] theorem State.raise_session (k : Failure) : (s.raise k).session = s.session := rfl
@[simp] theorem State.raise_inputs (k : Failure) : (s.raise k).inputs = s.inputs := rfl
@[simp] theorem State.raise_trace (k : Failure) : (s.raise k).trace = s.trace ++ [.failure k] := rfl

/-! ### `refuse` -/

@[simp] theorem State.refuse_mode (r : Reason) : (s.refuse r).mode = s.mode := rfl
@[simp] theorem State.refuse_buf (r : Reason) : (s.refuse r).buf = s.buf := rfl
@[simp] theorem State.refuse_pos (r : Reason) : (s.refuse r).pos = s.pos := rfl
@[simp] theorem State.refuse_prev (r : Reason) : (s.refuse r).prev = s.prev := rfl
@[simp] theorem State.refuse_cfg (r : Reason) : (s.refuse r).cfg = s.cfg := rfl
@[simp] theorem State.refuse_session (r : Reason) : (s.refuse r).session = s.session := rfl
@[simp] theorem State.refuse_inputs (r : Reason) : (s.refuse r).inputs = s.inputs := rfl
@[simp] theorem State.refuse_trace (r : Reason) : (s.refuse r).trace = s.trace ++ [.refusal r] := rfl

/-! ### `resetFramer` -/

@[simp] theorem State.resetFramer_mode : (s.resetFramer).mode = .idle := rfl
@[simp] theorem State.resetFramer_buf : (s.resetFramer).buf = [] := rfl
@[simp] theorem State.resetFramer_pos : (s.resetFramer).pos = 0 := rfl
@[simp] theorem State.resetFramer_prev : (s.resetFramer).prev = none := rfl
@[simp] theorem State.resetFramer_cfg : (s.resetFramer).cfg = s.cfg := rfl
@[simp] theorem State.resetFramer_session : (s.resetFramer).session = s.session := rfl
@[simp] theorem State.resetFramer_inputs : (s.resetFramer).inputs = s.inputs := rfl
@[simp] theorem State.resetFramer_trace : (s.resetFramer).trace = s.trace := rfl

/-! ### `selfReset` -/

@[simp] theorem State.selfReset_mode : (s.selfReset).mode = .idle := rfl
@[simp] theorem State.selfReset_buf : (s.selfReset).buf = [] := rfl
@[simp] theorem State.selfReset_pos : (s.selfReset).pos = 0 := rfl
@[simp] theorem State.selfReset_prev : (s.selfReset).prev = s.prev := rfl
@[simp] theorem State.selfReset_cfg : (s.selfReset).cfg = s.cfg := rfl
@[simp] theorem State.selfReset_session : (s.selfReset).session = s.session := rfl
@[simp] theorem State.selfReset_inputs : (s.selfReset).inputs = s.inputs := rfl
@[simp] theorem State.selfReset_trace : (s.selfReset).trace = s.trace := rfl

/-! ### `startCollecting` -/

@[simp] theorem State.startCollecting_mode : (s.startCollecting).mode = .collecting := rfl
@[simp] theorem State.startCollecting_buf : (s.startCollecting).buf = Memory.ofBytes [0x7e, 0xa0] := rfl
@[simp] theorem State.startCollecting_pos : (s.startCollecting).pos = 2 := rfl
@[simp] theorem State.startCollecting_prev : (s.startCollecting).prev = s.prev := rfl
@[simp] theorem State.startCollecting_cfg : (s.startCollecting).cfg = s.cfg := rfl
@[simp] theorem State.startCollecting_session : (s.startCollecting).session = s.session := rfl
@[simp] theorem State.startCollecting_inputs : (s.startCollecting).inputs = s.inputs := rfl
@[simp] theorem State.startCollecting_trace : (s.startCollecting).trace = s.trace := rfl

/-! ### `store` -/

@[simp] theorem State.store_mode (b : Byte) : (s.store b).mode = s.mode := rfl
@[simp] theorem State.store_buf (b : Byte) : (s.store b).buf = s.buf.append b := rfl
@[simp] theorem State.store_pos (b : Byte) : (s.store b).pos = s.pos + 1 := rfl
@[simp] theorem State.store_prev (b : Byte) : (s.store b).prev = s.prev := rfl
@[simp] theorem State.store_cfg (b : Byte) : (s.store b).cfg = s.cfg := rfl
@[simp] theorem State.store_session (b : Byte) : (s.store b).session = s.session := rfl
@[simp] theorem State.store_inputs (b : Byte) : (s.store b).inputs = s.inputs := rfl
@[simp] theorem State.store_trace (b : Byte) : (s.store b).trace = s.trace := rfl

/-! ### `remember` -/

@[simp] theorem State.remember_mode (b : Byte) : (s.remember b).mode = s.mode := rfl
@[simp] theorem State.remember_buf (b : Byte) : (s.remember b).buf = s.buf := rfl
@[simp] theorem State.remember_pos (b : Byte) : (s.remember b).pos = s.pos := rfl
@[simp] theorem State.remember_prev (b : Byte) : (s.remember b).prev = some b := rfl
@[simp] theorem State.remember_cfg (b : Byte) : (s.remember b).cfg = s.cfg := rfl
@[simp] theorem State.remember_session (b : Byte) : (s.remember b).session = s.session := rfl
@[simp] theorem State.remember_inputs (b : Byte) : (s.remember b).inputs = s.inputs := rfl
@[simp] theorem State.remember_trace (b : Byte) : (s.remember b).trace = s.trace := rfl

/-! ### `hold` -/

@[simp] theorem State.hold_mode : s.hold.mode = s.mode := rfl
@[simp] theorem State.hold_buf : s.hold.buf = s.buf := rfl
@[simp] theorem State.hold_pos : s.hold.pos = s.pos := rfl
@[simp] theorem State.hold_prev : s.hold.prev = s.prev := rfl
@[simp] theorem State.hold_cfg : s.hold.cfg = s.cfg := rfl
@[simp] theorem State.hold_session : s.hold.session = some s.cfg := rfl
@[simp] theorem State.hold_inputs : s.hold.inputs = s.inputs := rfl
@[simp] theorem State.hold_trace : s.hold.trace = s.trace := rfl

/-! ### `taken` -/

@[simp] theorem State.taken_mode : (s.taken).mode = s.mode := rfl
@[simp] theorem State.taken_buf : (s.taken).buf = s.buf := rfl
@[simp] theorem State.taken_pos : (s.taken).pos = s.pos := rfl
@[simp] theorem State.taken_prev : (s.taken).prev = s.prev := rfl
@[simp] theorem State.taken_cfg : (s.taken).cfg = s.cfg := rfl
@[simp] theorem State.taken_session : (s.taken).session = s.session := rfl
@[simp] theorem State.taken_inputs : (s.taken).inputs = s.inputs.tail := rfl
@[simp] theorem State.taken_trace : (s.taken).trace = s.trace := rfl

/-! ### `supply` -/

@[simp] theorem State.supply_mode (c : Cfg) : (s.supply c).mode = s.mode := rfl
@[simp] theorem State.supply_buf (c : Cfg) : (s.supply c).buf = s.buf := rfl
@[simp] theorem State.supply_pos (c : Cfg) : (s.supply c).pos = s.pos := rfl
@[simp] theorem State.supply_prev (c : Cfg) : (s.supply c).prev = s.prev := rfl
@[simp] theorem State.supply_cfg (c : Cfg) : (s.supply c).cfg = c := rfl
@[simp] theorem State.supply_session (c : Cfg) : (s.supply c).session = s.session := rfl
@[simp] theorem State.supply_inputs (c : Cfg) : (s.supply c).inputs = s.inputs := rfl
@[simp] theorem State.supply_trace (c : Cfg) : (s.supply c).trace = s.trace := rfl

/-! ### `issue` -/

@[simp] theorem State.issue_mode (bs : Bytes) : (s.issue bs).mode = s.mode := rfl
@[simp] theorem State.issue_buf (bs : Bytes) : (s.issue bs).buf = s.buf := rfl
@[simp] theorem State.issue_pos (bs : Bytes) : (s.issue bs).pos = s.pos := rfl
@[simp] theorem State.issue_prev (bs : Bytes) : (s.issue bs).prev = s.prev := rfl
@[simp] theorem State.issue_cfg (bs : Bytes) : (s.issue bs).cfg = s.cfg := rfl
@[simp] theorem State.issue_session (bs : Bytes) : (s.issue bs).session = s.session := rfl
@[simp] theorem State.issue_inputs (bs : Bytes) : (s.issue bs).inputs = .command bs :: s.inputs := rfl
@[simp] theorem State.issue_trace (bs : Bytes) : (s.issue bs).trace = s.trace := rfl

/-! ### The framer's fields as one tuple, and two answers in a row -/

/-- The order of two independent updates of an `RX` does not matter. -/
theorem State.answer_remember (b : Byte) (o : OpOutcome) : (s.remember b).answer o = (s.answer o).remember b := rfl

/-- An answer keeps everything but the record of outcomes. -/
theorem State.answer_eq (o : OpOutcome) : s.answer o = { s with trace := s.trace ++ [o] } := rfl

theorem State.raise_eq (k : Failure) : s.raise k = s.answer (.failure k) := rfl

theorem State.refuse_eq (r : Reason) : s.refuse r = s.answer (.refusal r) := rfl

end Sys2Proof.Machine
end

