-- ==== Sys2Proof/Laws/Framer.lean ====
section
/-! SUPPORT. Everything an operation and a step can do, said once, and the invariant of R25 under each of them. -/

namespace Sys2Proof.Machine

open Sys2Proof

/-- The end of a pure operation writes nothing but the record of outcomes, and the outcome does not depend on the state
(R9). -/
theorem State.finish_uniform {α : Type} (value : α → Value) (a : Answer α) :
    ∃ o, ∀ s : State, s.finish value a = s.answer o := by
  cases a with
  | result a => exact ⟨_, fun _ => rfl⟩
  | raise k => exact ⟨_, fun _ => rfl⟩
  | refuse r => exact ⟨_, fun _ => rfl⟩

/-- The same at one state. -/
theorem State.finish_eq {α : Type} (s : State) (value : α → Value) (a : Answer α) :
    ∃ o, s.finish value a = s.answer o :=
  (State.finish_uniform value a).imp fun _ h => h s

/-- Everything an `RX` can do (R163, R222): it is refused and writes nothing, or it takes one of its four cases. -/
theorem rx_cases (b : Byte) (s : State) :
    (∃ r, rx b s = (s, .refusal r)) ∨
    (s.configOk ∧ s.mode = .idle ∧ s.start b ∧ rx b s = (s.startCollecting.hold.remember b, .none)) ∨
    (s.configOk ∧ s.mode = .idle ∧ ¬s.start b ∧ rx b s = (s.hold.remember b, .none)) ∨
    (s.configOk ∧ s.mode = .collecting ∧ s.pos + 1 = s.cfg.frameLen ∧ ∃ ev,
      dispatch s.cfg (s.buf.bytes ++ [b]) = .ok ev ∧ rx b s = ((s.store b).selfReset.hold.remember b, .event ev)) ∨
    (s.configOk ∧ s.mode = .collecting ∧ s.pos + 1 ≠ s.cfg.frameLen ∧ rx b s = ((s.store b).hold.remember b, .none)) := by
  by_cases hc : s.configOk
  case neg => exact .inl ⟨_, by rw [rx, if_pos hc]⟩
  rw [rx, if_neg (not_not.mpr hc)]
  cases hm : s.mode with
  | idle =>
    by_cases hs : s.start b
    · exact .inr (.inl ⟨hc, rfl, hs, by simp only [if_pos hs]⟩)
    · exact .inr (.inr (.inl ⟨hc, rfl, hs, by simp only [if_neg hs]⟩))
  | collecting =>
    by_cases hf : s.pos + 1 = s.cfg.frameLen
    · have hfull : (s.store b).full := hf
      simp only [if_pos hfull, State.store_buf, Memory.bytes_append]
      cases hd : dispatch s.cfg (s.buf.bytes ++ [b]) with
      | error r => exact .inl ⟨r, rfl⟩
      | ok ev => exact .inr (.inr (.inr (.inl ⟨hc, trivial, hf, ev, rfl, rfl⟩)))
    · have hfull : ¬(s.store b).full := hf
      exact .inr (.inr (.inr (.inr ⟨hc, rfl, hf, by simp only [if_neg hfull]⟩)))

/-- `RX` in an unaccepted configuration (R222). -/
theorem rx_of_not_configOk {b : Byte} {s : State} (h : ¬s.configOk) : rx b s = (s, .refusal .configInvalid) := by
  rw [rx, if_pos h]

/-- `RX` in `Idle` (R163). -/
theorem rx_of_idle {b : Byte} {s : State} (h : s.configOk) (hm : s.mode = .idle) :
    rx b s = (if s.start b then s.startCollecting.hold.remember b else s.hold.remember b, .none) := by
  rw [rx, if_neg (not_not.mpr h), hm]

/-- `RX` in `Collecting` before the telegram is complete (R163). -/
theorem rx_of_store {b : Byte} {s : State} (h : s.configOk) (hm : s.mode = .collecting) (hp : s.pos + 1 ≠ s.cfg.frameLen) :
    rx b s = ((s.store b).hold.remember b, .none) := by
  have hfull : ¬(s.store b).full := hp
  rw [rx, if_neg (not_not.mpr h), hm]
  simp only [if_neg hfull]

/-- `RX` of the last byte of a telegram (R163, R165). -/
theorem rx_of_dispatch {b : Byte} {s : State} {ev : Event} (h : s.configOk) (hm : s.mode = .collecting)
    (hp : s.pos + 1 = s.cfg.frameLen) (hd : dispatch s.cfg (s.buf.bytes ++ [b]) = .ok ev) :
    rx b s = ((s.store b).selfReset.hold.remember b, .event ev) := by
  have hfull : (s.store b).full := hp
  rw [rx, if_neg (not_not.mpr h), hm]
  simp only [if_pos hfull, State.store_buf, Memory.bytes_append, hd]

theorem exec_rx (b : Byte) (s : State) : exec (.rx b) s = .next ((rx b s).1.answer (rx b s).2) := rfl

/-- What an `RX` never touches. -/
theorem rx_frame (b : Byte) (s : State) : (rx b s).1.trace = s.trace ∧ (rx b s).1.inputs = s.inputs ∧
    (rx b s).1.cfg = s.cfg ∧ ((rx b s).1.session = s.session ∨ (rx b s).1.session = some s.cfg) := by
  rcases rx_cases b s with ⟨r, h⟩ | ⟨-, -, -, h⟩ | ⟨-, -, -, h⟩ | ⟨-, -, -, ev, -, h⟩ | ⟨-, -, -, h⟩ <;> rw [h]
  · exact ⟨rfl, rfl, rfl, .inl rfl⟩
  all_goals exact ⟨rfl, rfl, rfl, .inr rfl⟩

/-- Everything an operation can do to the state: a pure operation only records its outcome; `RESET` and `RX` are what they
are (R9, column "state written"). -/
theorem exec_cases (i : Instr) (s : State) :
    (i = .reset ∧ exec i s = .next (s.resetFramer.hold.answer .none)) ∨
    (∃ b, i = .rx b ∧ exec i s = .next ((rx b s).1.answer (rx b s).2)) ∨
    (i ≠ .reset ∧ (∀ b, i ≠ .rx b) ∧ ∃ o, exec i s = .next (s.answer o)) := by
  cases i with
  | reset => exact .inl ⟨rfl, rfl⟩
  | rx b => exact .inr (.inl ⟨b, rfl, rfl⟩)
  | mirror b => exact .inr (.inr ⟨nofun, nofun, _, rfl⟩)
  | crc16 data => exact .inr (.inr ⟨nofun, nofun, _, rfl⟩)
  | verify input skip tl cut =>
    obtain ⟨o, ho⟩ := s.finish_eq .bool (Machine.verify input skip tl cut)
    exact .inr (.inr ⟨nofun, nofun, o, by rw [← ho]; rfl⟩)
  | decrypt key frame =>
    refine .inr (.inr ⟨nofun, nofun, ?_⟩)
    show ∃ o, execDecrypt key frame s = _
    rw [execDecrypt]
    split
    · exact ⟨_, rfl⟩
    · obtain ⟨o, ho⟩ := s.finish_eq .bytes (decryptVerified s.cfg key frame)
      exact ⟨o, by rw [ho]⟩
  | pdecode profile off plaintext =>
    obtain ⟨o, ho⟩ := s.finish_eq .reading (Machine.pdecode plaintext profile off)
    exact .inr (.inr ⟨nofun, nofun, o, by rw [← ho]; rfl⟩)
  | tsnorm year month day hour minute second off => exact .inr (.inr ⟨nofun, nofun, _, rfl⟩)

/-- What a step does, one case for each kind of input (R6). -/
theorem step_cases (s : State) :
    (s.inputs = [] ∧ step s = .next s) ∨
    (∃ c rest, s.inputs = .configure c :: rest ∧ step s = .next (s.taken.supply c)) ∨
    (∃ bs rest why, s.inputs = .command bs :: rest ∧ decode bs = .error why ∧
      step s = .next (s.taken.refuse .illegalCommand)) ∨
    (∃ bs rest i, s.inputs = .command bs :: rest ∧ decode bs = .ok i ∧ step s = exec i s.taken) := by
  cases hi : s.inputs with
  | nil => exact .inl ⟨rfl, by simp only [step, State.take, hi]⟩
  | cons x rest =>
    cases x with
    | configure c => exact .inr (.inl ⟨c, rest, rfl, by simp only [step, State.take, hi]⟩)
    | command bs =>
      cases hd : decode bs with
      | error why => exact .inr (.inr (.inl ⟨bs, rest, why, rfl, hd, by simp only [step, State.take, hi, hd]⟩))
      | ok i => exact .inr (.inr (.inr ⟨bs, rest, i, rfl, hd, by simp only [step, State.take, hi, hd]⟩))

/-! ### The invariant -/

/-- The invariant depends on what `RX` reads only. -/
theorem State.Inv.congr {s t : State} (h : s.Inv) (hv : t.rxView = s.rxView) : t.Inv := by
  obtain ⟨⟨hm, hb, hp, -⟩, -, hs⟩ :
      (t.mode = s.mode ∧ t.buf = s.buf ∧ t.pos = s.pos ∧ t.prev = s.prev) ∧ t.cfg = s.cfg ∧ t.session = s.session := by
    simpa only [State.rxView, State.framer, Prod.mk.injEq] using hv
  simp only [State.Inv, State.FramerInv] at h ⊢
  rw [hm, hb, hp, hs]
  exact h

/-- A state with the framer idle, empty, at position 0 meets the invariant. -/
theorem State.Inv.of_idle {t : State} (hm : t.mode = .idle) (hb : t.buf = []) (hp : t.pos = 0) : t.Inv := by
  simp only [State.Inv, State.FramerInv, hm, hb, hp]
  exact ⟨Memory.wf_nil, by simp⟩

/-- In `Collecting` the buffer holds `st.pos` bytes (R25). -/
theorem State.Inv.length_bytes {s : State} (hi : s.Inv) (hm : s.mode = .collecting) : s.buf.bytes.length = s.pos := by
  have := hi.2
  simp only [State.FramerInv, hm] at this
  simpa using this.1

/-- An `RX` keeps the invariant. -/
theorem State.Inv.rx {s : State} (hi : s.Inv) (b : Byte) : (Machine.rx b s).1.Inv := by
  rcases rx_cases b s with ⟨r, h⟩ | ⟨hc, -, -, h⟩ | ⟨-, hm, -, h⟩ | ⟨-, -, -, ev, -, h⟩ | ⟨hc, hm, hp, h⟩ <;> rw [h]
  · exact hi
  · obtain ⟨hv, hs⟩ := hc
    refine ⟨Memory.wf_ofBytes _, ?_⟩
    have : 17 ≤ s.cfg.frameLen := by unfold cfgValid at hv; omega
    exact ⟨rfl, le_refl _, ⟨s.cfg, rfl, show 2 < s.cfg.frameLen by omega⟩, rfl, rfl⟩
  · simp only [State.Inv, State.FramerInv, State.remember_mode, State.hold_mode, hm] at hi ⊢
    exact hi
  · exact .of_idle rfl rfl rfl
  · obtain ⟨hw, hf⟩ := hi
    simp only [State.FramerInv, hm] at hf
    obtain ⟨h1, h2, ⟨c, hcs, h3⟩, h4, h5⟩ := hf
    have h3 : s.pos < s.cfg.frameLen := by
      rcases hc.2 with h | h <;> rw [h] at hcs <;> cases hcs
      exact h3
    refine ⟨Memory.wf_append hw b, ?_⟩
    simp only [State.FramerInv, State.remember_mode, State.hold_mode, State.store_mode, hm]
    refine ⟨by simp [h1], ?_, ⟨s.cfg, rfl, show s.pos + 1 < s.cfg.frameLen by omega⟩, ?_, ?_⟩
    · show 2 ≤ s.pos + 1; omega
    · show (s.buf.append b).read 0 = _; rw [Memory.read_append_of_ne hw b (by omega), h4]
    · show (s.buf.append b).read 1 = _; rw [Memory.read_append_of_ne hw b (by omega), h5]

/-- Supplying a configuration keeps the invariant: the bound on the position is that of the session. -/
theorem State.Inv.supply {s : State} (hi : s.Inv) (c : Cfg) : (s.supply c).Inv := hi

end Sys2Proof.Machine
end

