-- ==== Sys2Proof/Laws/PerInstr.lean ====
section
/-! SUPPORT. One lemma per constructor of `Instr`: its operands are of its opcode's types, in range when the instruction is
well formed, and stand for the instruction again (R68). -/

namespace Sys2Proof.Laws.Operands

open Sys2Proof

/-- The operands of an instruction agree with the opcode map of R68. -/
def Statement (i : Instr) : Prop :=
  i.operands.map Operand.type = i.opcode.operandTypes ∧
    (i.wellFormed → (∀ o ∈ i.operands, o.fits) ∧ Instr.ofOperands i.opcode i.operands = some i)

theorem reset : Statement .reset := by simp [Statement, Instr.operands, Instr.opcode, Opcode.operandTypes, Instr.ofOperands]

theorem rx (b : Byte) : Statement (.rx b) := by
  refine ⟨rfl, fun _ => ⟨by simpa [Instr.operands] using b.isLt, by simp [Instr.operands, Instr.opcode, Instr.ofOperands]⟩⟩

theorem mirror (b : Byte) : Statement (.mirror b) := by
  refine ⟨rfl, fun _ => ⟨by simpa [Instr.operands] using b.isLt, by simp [Instr.operands, Instr.opcode, Instr.ofOperands]⟩⟩

theorem crc16 (data : Bytes) : Statement (.crc16 data) :=
  ⟨rfl, fun h => ⟨by simpa [Instr.operands, Operand.fits, Instr.wellFormed] using h, rfl⟩⟩

theorem verify (input : Bytes) (skip tl cut : Nat) : Statement (.verify input skip tl cut) :=
  ⟨rfl, fun h => ⟨by simpa [Instr.operands, Operand.fits, Instr.wellFormed] using h, rfl⟩⟩

theorem decrypt (key frame : Bytes) : Statement (.decrypt key frame) :=
  ⟨rfl, fun h => ⟨by simpa [Instr.operands, Operand.fits, Instr.wellFormed] using h, rfl⟩⟩

theorem pdecode (profile : Profile) (off : Int) (plaintext : Bytes) : Statement (.pdecode profile off plaintext) := by
  refine ⟨rfl, fun h => ⟨?_, ?_⟩⟩
  · have := profile.toByte.isLt
    simpa [Instr.operands] using ⟨this, h.2.1, h.2.2⟩
  · simp [Instr.operands, Instr.opcode, Instr.ofOperands, Profile.ofByte_toByte h.1]

theorem tsnorm (year month day hour minute second : Nat) (off : Int) :
    Statement (.tsnorm year month day hour minute second off) :=
  ⟨rfl, fun h => ⟨by simpa [Instr.operands, Operand.fits, Instr.wellFormed] using h, rfl⟩⟩

end Sys2Proof.Laws.Operands
end

