-- ==== Sys2Proof/Laws/Profile.lean ====
section
/-! SUPPORT. The two tables' least lengths, what `pdecode` answers, big-endian values, and decimal numerals. -/

namespace Sys2Proof.Machine

open Sys2Proof

/-- The least plaintext lengths R190 computes from its table. -/
theorem tableWn_need : tableWn.need = 74 := rfl

theorem tableKn_need : tableKn.need = 86 := rfl

/-- The profile is tested first (R193). -/
theorem pdecode_unsupported (plaintext : Bytes) (code : Byte) (off : Int) :
    pdecode plaintext (.unsupported code) off = .raise .unsupportedProfileError := rfl

/-- Then the length (R193). -/
theorem pdecode_of_short {plaintext : Bytes} {profile : Profile} {t : ProfileTable} (ht : profileTable profile = some t)
    (h : plaintext.length < t.need) (off : Int) : pdecode plaintext profile off = .raise .malformedFrameError := by
  simp only [pdecode, ht, if_pos h]

/-- Then the fields are read (R193). -/
theorem pdecode_of_le {plaintext : Bytes} {profile : Profile} {t : ProfileTable} (ht : profileTable profile = some t)
    (h : t.need ≤ plaintext.length) (off : Int) : pdecode plaintext profile off = .result (readingOf t off plaintext) := by
  simp only [pdecode, ht, if_neg (show ¬plaintext.length < t.need by omega)]

/-- The value of a byte string with one more byte (R191). -/
theorem ube_concat (s : Bytes) (b : Byte) : ube (s ++ [b]) = ube s * 256 + b.toNat := by
  simp [ube]

/-- The value of `n` bytes is below `256 ^ n` (R191). -/
theorem ube_lt (s : Bytes) : ube s < 256 ^ s.length := by
  induction s using List.reverseRecOn with
  | nil => simp [ube]
  | append_singleton s b ih =>
    have := b.isLt
    rw [ube_concat, List.length_append, List.length_singleton, Nat.pow_succ]
    omega

/-- A numeral of a one-digit number, put before a text. -/
theorem decimalDigits_of_lt {n : Nat} (h : n < 10) (fuel : Nat) (acc : Text) :
    decimalDigits (fuel + 1) n acc = digitChar n :: acc := by
  simp [decimalDigits, h]

/-- A numeral of a longer number: its last digit stands last. -/
theorem decimalDigits_of_le {n : Nat} (h : 10 ≤ n) (fuel : Nat) (acc : Text) :
    decimalDigits (fuel + 1) n acc = decimalDigits fuel (n / 10) (digitChar (n % 10) :: acc) := by
  simp [decimalDigits, show ¬n < 10 by omega]

/-- The ten digits are the characters `0` to `9`. -/
theorem digitChar_digit : ∀ d < 10, '0' ≤ digitChar d ∧ digitChar d ≤ '9' ∧ (digitChar d).toNat - '0'.toNat = d ∧
    (digitChar d = '0' → d = 0) := by
  decide

/-- The number 0 has one digit. -/
theorem dec_zero : dec 0 = ['0'] := by decide

end Sys2Proof.Machine
end

