-- ==== Sys2Proof/Laws/Pseudo.lean ====
section
/-! SUPPORT. Sequences of operations: a sequence is run part by part, and a fed byte string byte by byte. -/

namespace Sys2Proof.Machine

open Sys2Proof

/-- A sequence after another one that reaches a state. -/
theorem execAll_append {xs : List Instr} {s t : State} (h : execAll xs s = .next t) (ys : List Instr) :
    execAll (xs ++ ys) s = execAll ys t := by
  induction xs generalizing s with
  | nil => cases h; rfl
  | cons x xs ih =>
    simp only [execAll, List.cons_append] at h ⊢
    cases hx : exec x s with
    | next u => rw [hx] at h; exact ih h
    | fault r => rw [hx] at h; cases h
    | refused r => rw [hx] at h; cases h

/-- The outcomes of a sequence are what it adds to the record. -/
theorem outcomes_eq {is : List Instr} {s t : State} {os : List OpOutcome} (h : execAll is s = .next t)
    (ht : t.trace = s.trace ++ os) : outcomes is s = os := by
  simp [outcomes, h, ht]

/-- The outcome of `FEED`, from the record (R74). -/
theorem feedOutcome_eq {bs : Bytes} {s t : State} {os : List OpOutcome} (h : execAll (feed bs) s = .next t)
    (ht : t.trace = s.trace ++ os) : feedOutcome bs s = os.filter (· ≠ .none) := by
  rw [feedOutcome, outcomes_eq h ht]

/-- Bytes that complete no telegram leave `FEED` without an outcome. -/
theorem filter_replicate_none (n : Nat) : (List.replicate n OpOutcome.none).filter (· ≠ .none) = [] := by simp

@[simp] theorem feed_nil : feed [] = [] := rfl

@[simp] theorem feed_append (xs ys : Bytes) : feed (xs ++ ys) = feed xs ++ feed ys := List.map_append

/-- Feeding a byte is one `RX` (R74). -/
theorem execAll_feed_cons (b : Byte) (bs : Bytes) (s : State) :
    execAll (feed (b :: bs)) s = execAll (feed bs) ((rx b s).1.answer (rx b s).2) := rfl

/-- Bytes fed while collecting, before the telegram is complete, are stored one after the other (R64, R163). -/
theorem execAll_feed_of_collecting (data : Bytes) : ∀ s : State, s.configOk → s.mode = .collecting →
    s.pos + data.length < s.cfg.frameLen → execAll (feed data) s =
      .next { s with buf := data.foldl Memory.append s.buf, pos := s.pos + data.length,
                     prev := (s.prev.toList ++ data).getLast?,
                     session := if data = [] then s.session else some s.cfg,
                     trace := s.trace ++ List.replicate data.length .none } := by
  induction data with
  | nil =>
    intro s _ _ _
    obtain ⟨mode, buf, pos, prev, cfg, session, inputs, trace⟩ := s
    cases prev <;> simp [execAll]
  | cons d ds ih =>
    intro s hc hm hp
    simp only [List.length_cons] at hp
    rw [execAll_feed_cons, rx_of_store hc hm (by omega),
      ih (((s.store d).hold.remember d).answer .none) ⟨hc.1, .inr rfl⟩ hm (by show s.pos + 1 + ds.length < s.cfg.frameLen; omega)]
    simp only [State.answer, State.store, State.hold, State.remember, List.foldl_cons, List.length_cons, List.replicate_succ]
    cases s.prev <;> simp [List.getLast?_cons] <;> omega

end Sys2Proof.Machine
end

