-- ==== Sys2Proof/Laws/Telegram.lean ====
section
/-! SUPPORT. What the verification of a frame answers, and the telegram in its parts. -/

namespace Sys2Proof.Machine

open Sys2Proof

/-- A frame of fewer than 4 bytes cannot be verified (R100). -/
theorem verifyFrame_of_short {frame : Bytes} (h : frame.length < 4) :
    verifyFrame frame = .raise .malformedFrameError := verify_of_short (by omega)

/-- A longer frame verifies exactly when it is intact (R63, R100). -/
theorem verifyFrame_of_le {frame : Bytes} (h : 4 ≤ frame.length) :
    verifyFrame frame = .result (decide (intact frame)) := by
  simp only [verifyFrame, verify]
  rw [if_neg (by simp), if_neg (by omega), show frame.length - 2 - 1 = frame.length - 3 by omega]

theorem verifyFrame_eq_true_iff {frame : Bytes} : verifyFrame frame = .result true ↔ 4 ≤ frame.length ∧ intact frame := by
  rcases Nat.lt_or_ge frame.length 4 with h | h
  · rw [verifyFrame_of_short h]
    exact ⟨nofun, fun ⟨h', _⟩ => absurd h' (by omega)⟩
  · rw [verifyFrame_of_le h]
    simp [h]

/-- The counter fits when the last block does, also for empty data (R143). -/
theorem counterFits_of_le {ctr0 n : Nat} (h : ctr0 + (n - 1) / 16 ≤ 0xFFFFFFFF) : CounterFits ctr0 0 n := by
  rcases Nat.eq_zero_or_pos n with rfl | hn
  · intro k hk; omega
  · exact (counterFits_iff hn).mpr h

theorem length_frameCiphertext {cfg : Cfg} {frame : Bytes} :
    (frameCiphertext cfg frame).length = frame.length - 3 - cfg.ctOff := length_slice (by omega)

/-- Whether a frame is intact does not depend on its last byte (R63, R171). -/
theorem intact_concat_iff {f : Bytes} (h : 2 ≤ f.length) (x : Byte) : intact (f ++ [x]) ↔
    (calcCrc16 (slice f 1 (f.length - 2))).toNat = trailerValue (slice f (f.length - 2) f.length) := by
  simp only [intact, List.length_append, List.length_singleton]
  rw [show f.length + 1 - 3 = f.length - 2 by omega, show f.length + 1 - 1 = f.length by omega,
    slice_append_left (by omega), slice_append_left (by omega)]

/-- The dispatch of a frame that verifies and decrypts (R166). -/
theorem dispatch_of_decrypted {cfg : Cfg} {f pt : Bytes} (hv : verifyFrame f = .result true)
    (hd : decryptFrame cfg f cfg.key = .result pt) : dispatch cfg f = .ok (.decoded pt) := by
  simp only [dispatch, hv, hd]

/-- The dispatch of a frame that does not verify (R166). -/
theorem dispatch_of_not_verified {cfg : Cfg} {f : Bytes} (hv : verifyFrame f = .result false) :
    dispatch cfg f = .ok (.fail .checksumError) := by
  simp only [dispatch, hv]

/-- Any string between a first byte and its own FCS is an intact frame, whatever the last byte (R63). -/
theorem intact_of_fcs (first last : Byte) (covered : Bytes) :
    intact (first :: (covered ++ be16 (calcCrc16 covered).toNat ++ [last])) := by
  have hb : (be16 (calcCrc16 covered).toNat).length = 2 := rfl
  have hl : (first :: (covered ++ be16 (calcCrc16 covered).toNat)).length = covered.length + 3 := by simp [hb]
  have h1 : slice (first :: (covered ++ be16 (calcCrc16 covered).toNat)) 1 (covered.length + 1) = covered := by
    have := slice_append_middle [first] covered (be16 (calcCrc16 covered).toNat)
    simpa [Nat.add_comm] using this
  have h2 : slice (first :: (covered ++ be16 (calcCrc16 covered).toNat)) (covered.length + 1) (covered.length + 3) =
      be16 (calcCrc16 covered).toNat := by
    have := slice_append_middle (first :: covered) (be16 (calcCrc16 covered).toNat) []
    simpa [hb] using this
  have h := (intact_concat_iff (f := first :: (covered ++ be16 (calcCrc16 covered).toNat)) (by omega) last).mpr
  rw [hl, show covered.length + 3 - 2 = covered.length + 1 by omega, h1, h2, trailerValue_be16] at h
  exact h rfl

theorem Telegram.length_frame (t : Telegram) : t.frame.length = t.covered.length + 4 := by
  simp [Telegram.frame, be16]

end Sys2Proof.Machine
end

