-- ==== Sys2Proof/Machine/Assembly.lean ====
section
/-! DEFINITION. The textual form of operations (R73) and of the pseudo-operations (R74): an assembler for one line.
What R73 leaves open of it (blanks, signs, a word for a profile) is log entry 19. -/

namespace Sys2Proof.Machine

open Sys2Proof

/-- A line of a program: an operation, or a pseudo-operation that is not one operation (R74). -/
inductive Line where
  | operation (i : Instr)
  | feed (bs : Bytes)
  | rxp (b : Byte)
  deriving DecidableEq, Repr

/-- An operand as it is written (R73). -/
inductive Written where
  | number (z : Int)
  | bytes (bs : Bytes)
  | profile (p : Profile)
  deriving DecidableEq, Repr

/-- The opening brace of a byte string. -/
def openBrace : Char := Char.ofNat 123

/-- The closing brace of a byte string. -/
def closeBrace : Char := Char.ofNat 125

/-- Without the blanks at both ends. -/
def trim (t : Text) : Text := ((t.dropWhile (· = ' ')).reverse.dropWhile (· = ' ')).reverse

/-- The parts of a text between occurrences of a separator, given the part read so far, newest first. -/
def splitAt (sep : Char) : Text → Text → List Text
  | part, [] => [part.reverse]
  | part, c :: cs => if c = sep then part.reverse :: splitAt sep [] cs else splitAt sep (c :: part) cs

/-- The text before a comment (`;` to the end of the line) or a written outcome (after `->`) (R73). -/
def withoutComment : Text → Text
  | [] => []
  | [c] => if c = ';' then [] else [c]
  | c :: d :: cs => if c = ';' ∨ (c = '-' ∧ d = '>') then [] else c :: withoutComment (d :: cs)

/-- The value of a digit, if it is one in the base: `0`..`9`, `a`..`f`, `A`..`F`. -/
def digitValue (base : Nat) (c : Char) : Option Nat :=
  let n := c.toNat
  let v := if 48 ≤ n ∧ n ≤ 57 then n - 48 else if 97 ≤ n ∧ n ≤ 102 then n - 87 else if 65 ≤ n ∧ n ≤ 70 then n - 55 else base
  if v < base then some v else none

/-- The number that digits write in a base, continued from `n`. -/
def digitsValue (base : Nat) : Nat → Text → Option Nat
  | n, [] => some n
  | n, c :: cs =>
    match digitValue base c with
    | none => none
    | some d => digitsValue base (n * base + d) cs

/-- A natural in decimal or `0x` hexadecimal (R73). -/
def parseNat : Text → Option Nat
  | [] => none
  | ['0', 'x'] => none
  | '0' :: 'x' :: cs => digitsValue 16 0 cs
  | cs => digitsValue 10 0 cs

/-- A number with an optional sign; a sign is only meant for the operand `off`. -/
def parseInt : Text → Option Int
  | '-' :: cs => (parseNat cs).map fun n => -(n : Int)
  | '+' :: cs => (parseNat cs).map fun n => (n : Int)
  | cs => (parseNat cs).map fun n => (n : Int)

/-- A hexadecimal pair (R73). -/
def parsePair : Text → Option Byte
  | [a, b] => (digitsValue 16 0 [a, b]).map (BitVec.ofNat 8)
  | _ => none

/-- The hexadecimal pairs of a byte string, separated by blanks (R73). -/
def parsePairs (t : Text) : Option Bytes := ((splitAt ' ' [] t).filter (· ≠ [])).mapM parsePair

/-- One operand (R73). -/
def parseOperand (t : Text) : Option Written :=
  if t = ['W', 'N'] then some (.profile .wn)
  else if t = ['K', 'N'] then some (.profile .kn)
  else if t.head? = some openBrace ∧ t.getLast? = some closeBrace then (parsePairs (t.drop 1).dropLast).map .bytes
  else (parseInt t).map .number

/-- The operands of a line, separated by commas; none when nothing is written (R73). -/
def parseOperands (t : Text) : Option (List Written) :=
  if trim t = [] then some [] else ((splitAt ',' [] t).map trim).mapM parseOperand

/-- The profile operand of `PDECODE`: a word or the profile byte (R68). -/
def Written.profile? : Written → Option Profile
  | .profile p => some p
  | .number z => if 0 ≤ z ∧ z < 256 then some (Profile.ofByte (BitVec.ofInt 8 z)) else none
  | .bytes _ => none

/-- A natural operand. -/
def Written.nat? : Written → Option Nat
  | .number z => if 0 ≤ z then some z.toNat else none
  | _ => none

/-- A byte operand. -/
def Written.byte? (w : Written) : Option Byte :=
  match w.nat? with
  | some n => if fitsU8 n then some (BitVec.ofNat 8 n) else none
  | none => none

/-- The operation of a mnemonic and its written operands, in the textual order of R9 and R74. -/
def lineOf (mnemonic : Text) (operands : List Written) : Option Line :=
  if mnemonic = ['R', 'E', 'S', 'E', 'T'] then
    if operands = [] then some (.operation .reset) else none
  else if mnemonic = ['R', 'X'] then
    match operands with
    | [b] => b.byte?.map fun b => .operation (.rx b)
    | _ => none
  else if mnemonic = ['R', 'X', 'P'] then
    match operands with
    | [b] => b.byte?.map .rxp
    | _ => none
  else if mnemonic = ['F', 'E', 'E', 'D'] then
    match operands with
    | [.bytes bs] => some (.feed bs)
    | _ => none
  else if mnemonic = ['M', 'I', 'R', 'R', 'O', 'R'] then
    match operands with
    | [b] => b.byte?.map fun b => .operation (.mirror b)
    | _ => none
  else if mnemonic = ['C', 'R', 'C', '1', '6'] then
    match operands with
    | [.bytes data] => some (.operation (.crc16 data))
    | _ => none
  else if mnemonic = ['V', 'E', 'R', 'I', 'F', 'Y'] then
    match operands with
    | [.bytes input, skip] => skip.nat?.map fun skip => .operation (verifyDefault input skip)
    | [.bytes input, skip, tl, cut] =>
      match skip.nat?, tl.nat?, cut.nat? with
      | some skip, some tl, some cut => some (.operation (.verify input skip tl cut))
      | _, _, _ => none
    | _ => none
  else if mnemonic = ['V', 'E', 'R', 'I', 'F', 'Y', 'F'] then
    match operands with
    | [.bytes frame] => some (.operation (verifyPipeline frame))
    | _ => none
  else if mnemonic = ['D', 'E', 'C', 'R', 'Y', 'P', 'T'] then
    match operands with
    | [.bytes key, .bytes frame] => some (.operation (.decrypt key frame))
    | _ => none
  else if mnemonic = ['P', 'D', 'E', 'C', 'O', 'D', 'E'] then
    match operands with
    | [profile, .number off, .bytes plaintext] =>
      profile.profile?.map fun p => .operation (.pdecode p off plaintext)
    | _ => none
  else if mnemonic = ['T', 'S', 'N', 'O', 'R', 'M'] then
    match operands with
    | [year, month, day, hour, minute, second, .number off] =>
      match year.nat?, month.nat?, day.nat?, hour.nat?, minute.nat?, second.nat? with
      | some y, some mo, some d, some h, some mi, some se => some (.operation (.tsnorm y mo d h mi se off))
      | _, _, _, _, _, _ => none
    | _ => none
  else none

/-- The operation or pseudo-operation that one line writes (R73): `MNEMONIC operand, operand, ..`. -/
def assemble (t : Text) : Option Line :=
  let body := trim (withoutComment t)
  let mnemonic := body.takeWhile (· ≠ ' ')
  match parseOperands (body.drop mnemonic.length) with
  | none => none
  | some operands => lineOf mnemonic operands

/-- The outcome that a line of a program is followed by (R73, R74): of an operation its own, of `FEED` the list of the
non-`none` ones, of `RXP` that of R200. -/
def Line.outcomes (off : Int) : Line → State → List OpOutcome
  | .operation i, s => Machine.outcomes [i] s
  | .feed bs, s => feedOutcome bs s
  | .rxp b, s => [rxpOutcome s.cfg.profile off (rx b s).2]

/-- Run a line (R74); `off` is the host's current UTC offset, read by `RXP` only (R200). -/
def Line.run (off : Int) : Line → State → Host.Outcome State Fault Refusal
  | .operation i, s => exec i s
  | .feed bs, s => execAll (Machine.feed bs) s
  | .rxp b, s => execRxp b off s

end Sys2Proof.Machine
end

