-- ==== Sys2Proof/Tests/Slice0.lean ====
section
/-! SUPPORT. Small tests, and one witness for every statement that has hypotheses.
Every expected value is one of spec/95_test_vectors.md or of the rule named, never a value the model computed. -/

namespace Sys2Proof.Tests

open Sys2Proof Sys2Proof.Machine

/-! ### Helpers -/

/-- The state after `RESET` under the configuration `SMALL` (95_test_vectors.md). -/
def small : State := { State.reset with cfg := Cfg.small }

/-- A state that is collecting and holds these bytes. -/
def collecting (c : Cfg) (bs : Bytes) : State :=
  { mode := .collecting, buf := Memory.ofBytes bs, pos := bs.length, prev := bs.getLast?, cfg := c, session := some c,
    inputs := [], trace := [] }

/-- The telegram of 95_test_vectors.md section 5.1. -/
def telegram : Bytes := [0x7e, 0xa0, 0x4b, 0x46, 0x4d, 0x10, 0x20, 0x00, 0x00, 0x01, 0x00, 0x00, 0x00, 0x42, 0xf8, 0x9d, 0xea, 0x9f, 0x5d, 0xf0, 0x43, 0x8d, 0xa7, 0x7e]

/-- The telegram of program P3. -/
def telegramP3 : Bytes :=
    [0x7e, 0xa0, 0x67, 0xcf, 0x02, 0x23, 0x13, 0xfb, 0xf1, 0xe6, 0xe7, 0x00, 0xdb, 0x08, 0x4b, 0x46, 0x4d, 0x10, 0x20, 0x00] ++
    [0x00, 0x01, 0x4f, 0x20, 0x00, 0x00, 0x00, 0x42, 0xf8, 0x9c, 0xe8, 0x9c, 0x59, 0xf5, 0x45, 0x5a, 0xa4, 0xdc, 0x5a, 0xbb] ++
    [0xad, 0x34, 0xbe, 0xb2, 0xbb, 0x22, 0xeb, 0x61, 0x73, 0xce, 0x40, 0x33, 0x66, 0xbb, 0x95, 0x17, 0x67, 0x86, 0x75, 0x5b] ++
    [0x44, 0x2f, 0x23, 0xde, 0x37, 0x74, 0xcc, 0xa9, 0x36, 0x90, 0x0a, 0xcf, 0x28, 0x58, 0x95, 0xc5, 0xf7, 0xca, 0xa4, 0xd8] ++
    [0x91, 0xa3, 0x35, 0x1d, 0xea, 0x52, 0xd5, 0x93, 0x62, 0xf2, 0xae, 0x71, 0xab, 0x61, 0x8c, 0x1d, 0xfc, 0xdd, 0x1d, 0xbd] ++
    [0xaa, 0x14, 0xd3, 0xba, 0x7e]

/-- The plaintext of program P3. -/
def plaintextP3 : Bytes :=
    [0x00, 0x00, 0x00, 0x00, 0x00, 0x00, 0x00, 0x00, 0x00, 0x00, 0x00, 0x00, 0x00, 0x00, 0x00, 0x00, 0x00, 0x00, 0x00, 0x00] ++
    [0x00, 0x00, 0x07, 0xe5, 0x08, 0x01, 0x07, 0x0e, 0x05, 0x32, 0x00, 0x00, 0x00, 0x00, 0x06, 0x00, 0x44, 0x84, 0xbc, 0x06] ++
    [0x00, 0x00, 0x01, 0x01, 0x06, 0x00, 0x00, 0xff, 0xff, 0x06, 0x00, 0x01, 0x00, 0x00, 0x06, 0x00, 0x00, 0x01, 0xf4, 0x06] ++
    [0x00, 0x00, 0x00, 0x00, 0x06, 0xff, 0xff, 0xff, 0xff, 0x06, 0x00, 0x00, 0x00, 0x2a]

/-- The KN plaintext of 95_test_vectors.md section 7.2. -/
def plaintextKn : Bytes :=
    [0x00, 0x00, 0x00, 0x00, 0x00, 0x00, 0x00, 0x00, 0x00, 0x00, 0x00, 0x00, 0x00, 0x00, 0x00, 0x00, 0x00, 0x00, 0x00, 0x00] ++
    [0x00, 0x00, 0x00, 0x00, 0x00, 0x00, 0x00, 0x00, 0x00, 0x00, 0x00, 0x00, 0x00, 0x00, 0x00, 0x00, 0x00, 0x00, 0x00, 0x00] ++
    [0x00, 0x00, 0x00, 0x00, 0x00, 0x17, 0x3b, 0x3a, 0x00, 0x00, 0x00, 0x07, 0xe6, 0x0c, 0x1f, 0x00, 0x00, 0x00, 0x00, 0x00] ++
    [0x01, 0x00, 0x00, 0x00, 0x00, 0x02, 0x00, 0x00, 0x00, 0x00, 0x03, 0x00, 0x00, 0x00, 0x00, 0x04, 0x00, 0x00, 0x00, 0x00] ++
    [0x05, 0x00, 0x00, 0x00, 0x00, 0x06]

/-- The telegram of section 5.1 in its fields. -/
def fields : Telegram :=
  { header := [], systemTitle := [0x4b, 0x46, 0x4d, 0x10, 0x20, 0x00, 0x00, 0x01], gap1 := [],
    invocationCounter := [0x00, 0x00, 0x00, 0x42], gap2 := [], ciphertext := [0xf8, 0x9d, 0xea, 0x9f, 0x5d, 0xf0, 0x43], endFlag := 0x7e }

/-- One step away from the dispatch of that telegram. -/
def almost : State := collecting Cfg.small telegram.dropLast

/-- The state after an operation. -/
def after (i : Instr) (s : State) : State :=
  match exec i s with
  | .next t => t
  | _ => s

/-- The outcome of an operation. -/
def outcome (i : Instr) (s : State) : Option OpOutcome := (after i s).trace.getLast?

/-- The state after issuing a command and one step. -/
def stepped (bs : Bytes) (s : State) : State :=
  match step (s.issue bs) with
  | .next t => t
  | _ => s

/-! ### Well-formedness: one ill-formed term for each check -/

theorem test_illFormed_crc16 (n : Nat) (h : 2 ^ 16 ≤ n) : ¬(Instr.crc16 (List.replicate n 0)).wellFormed := by
  simp [Instr.wellFormed]; omega
theorem test_illFormed_verify_skip : ¬(Instr.verify [] 65536 2 0).wellFormed := by decide
theorem test_illFormed_verify_tl : ¬(Instr.verify [] 0 65536 0).wellFormed := by decide
theorem test_illFormed_verify_cut : ¬(Instr.verify [] 0 2 65536).wellFormed := by decide
theorem test_illFormed_verify_input (n : Nat) (h : 2 ^ 16 ≤ n) : ¬(Instr.verify (List.replicate n 0) 0 2 0).wellFormed := by
  simp [Instr.wellFormed]; omega
theorem test_illFormed_decrypt_key (n : Nat) (h : 2 ^ 16 ≤ n) : ¬(Instr.decrypt (List.replicate n 0) []).wellFormed := by
  simp [Instr.wellFormed]; omega
theorem test_illFormed_decrypt_frame (n : Nat) (h : 2 ^ 16 ≤ n) : ¬(Instr.decrypt [] (List.replicate n 0)).wellFormed := by
  simp [Instr.wellFormed]; omega
theorem test_illFormed_pdecode_profile : ¬(Instr.pdecode (.unsupported 1) 0 []).wellFormed := by decide
theorem test_illFormed_pdecode_off : ¬(Instr.pdecode .wn 128 []).wellFormed := by decide
theorem test_illFormed_pdecode_plaintext (n : Nat) (h : 2 ^ 16 ≤ n) :
    ¬(Instr.pdecode .wn 0 (List.replicate n 0)).wellFormed := by
  simp [Instr.wellFormed]; omega
theorem test_illFormed_tsnorm_year : ¬(Instr.tsnorm 65536 0 0 0 0 0 0).wellFormed := by decide
theorem test_illFormed_tsnorm_month : ¬(Instr.tsnorm 0 256 0 0 0 0 0).wellFormed := by decide
theorem test_illFormed_tsnorm_day : ¬(Instr.tsnorm 0 0 256 0 0 0 0).wellFormed := by decide
theorem test_illFormed_tsnorm_hour : ¬(Instr.tsnorm 0 0 0 256 0 0 0).wellFormed := by decide
theorem test_illFormed_tsnorm_minute : ¬(Instr.tsnorm 0 0 0 0 256 0 0).wellFormed := by decide
theorem test_illFormed_tsnorm_second : ¬(Instr.tsnorm 0 0 0 0 0 256 0).wellFormed := by decide
theorem test_illFormed_tsnorm_off : ¬(Instr.tsnorm 0 0 0 0 0 0 (-129)).wellFormed := by decide

/-! ### Decoding: one command of every constructor, written from R67 and R68 -/

theorem test_decode_reset : decode [0b00000000] = .ok .reset := by decide
theorem test_decode_rx : decode [0b00000001, 0b01111110] = .ok (.rx 0x7e) := by decide
theorem test_decode_mirror : decode [0b00010000, 0b10001100] = .ok (.mirror 0x8c) := by decide
theorem test_decode_crc16 : decode [0x11, 0x00, 0x02, 0xa0, 0x67] = .ok (.crc16 [0xa0, 0x67]) := by decide
theorem test_decode_verify : decode [0x12, 0x00, 0x01, 0x00, 0x02, 0x00, 0x01, 0x00, 0x04, 0x7e, 0x00, 0x00, 0x7e] =
    .ok (.verify [0x7e, 0x00, 0x00, 0x7e] 1 2 1) := by decide
theorem test_decode_verify_u16 : decode [0x12, 0x12, 0x34, 0x01, 0x00, 0xff, 0xfe, 0x00, 0x00] = .ok (.verify [] 0x1234 256 65534) := by decide
theorem test_decode_decrypt : decode [0x20, 0x00, 0x01, 0xff, 0x00, 0x02, 0x7e, 0xa0] = .ok (.decrypt [0xff] [0x7e, 0xa0]) := by decide
theorem test_decode_pdecode : decode [0x40, 0x01, 0xff, 0x00, 0x01, 0x17] = .ok (.pdecode .kn (-1) [0x17]) := by decide
theorem test_decode_pdecode_unsupported : decode [0x40, 0x07, 0x80, 0x00, 0x00] = .ok (.pdecode (.unsupported 7) (-128) []) := by decide
/-- The command of 95_test_vectors.md section 7.3, third row. -/
theorem test_decode_tsnorm : decode [0x41, 0x07, 0xe5, 0x08, 0x01, 0x17, 0x00, 0x00, 0xfe] = .ok (.tsnorm 2021 8 1 23 0 0 (-2)) := by decide
theorem test_encode_tsnorm : encode (.tsnorm 2021 8 1 14 5 50 2) = [0x41, 0x07, 0xe5, 0x08, 0x01, 0x0e, 0x05, 0x32, 0x02] := by decide
theorem test_encode_decrypt : encode (.decrypt [0xff] [0x7e, 0xa0]) = [0x20, 0x00, 0x01, 0xff, 0x00, 0x02, 0x7e, 0xa0] := by decide

/-- The four cases of R69; the commands are the raw ones of program P4. -/
theorem test_decode_empty : decode [] = .error .empty := by decide
theorem test_decode_reserved : decode [0x02] = .error .reservedOpcode := by decide
theorem test_decode_truncated_rx : decode [0x01] = .error .truncated := by decide
theorem test_decode_leftOver_rx : decode [0x01, 0x01, 0x02] = .error .leftOver := by decide
theorem test_decode_truncated_crc16 : decode [0x11, 0x00, 0x03, 0x31, 0x32] = .error .truncated := by decide
/-- Exactly the eight opcodes of R68 are assigned: 248 are reserved. -/
theorem test_reserved_opcodes : ((List.range 256).filter fun n => (Opcode.ofByte (BitVec.ofNat 8 n)).isNone).length = 248 := by
  decide +kernel
theorem test_tableWord_rx : decodeTableWord 16 0x7e01 = some (.rx 0x7e) := by decide
/-- A front that announces three data bytes is continued by three zeros (R70, log entry 11). -/
theorem test_tableWord_crc16 : decodeTableWord 24 0x030011 = some (.crc16 [0, 0, 0]) := by decide
theorem test_tableWord_reserved : decodeTableWord 8 0x02 = none := by decide
theorem test_withFetchWord : step (State.reset.withFetchWord 16 0x8c10) = exec (.mirror 0x8c) State.reset := by rfl

/-! ### The CRC unit (95_test_vectors.md section 2) -/

theorem test_mirror : outcome (.mirror 0x31) small = some (.value (.byte 0x8c)) := by decide
theorem test_mirror_a0 : outcome (.mirror 0xa0) small = some (.value (.byte 0x05)) := by decide
/-- The bit steps of section 2.2, after the first, the fifth and the eighth. -/
theorem test_bitSteps : crcBitSteps 1 (0xffff, 0x8c00) = (0xfffe, 0x1800) ∧ crcBitSteps 5 (0xffff, 0x8c00) = (0x1e2e, 0x8000) ∧
    crcBitSteps 8 (0xffff, 0x8c00) = (0xb1f4, 0x0000) := by decide +kernel
theorem test_crc16_small_frame :
    outcome (.crc16 [0xa0, 0x4b, 0x46, 0x4d, 0x10, 0x20, 0x00, 0x00, 0x01, 0x00, 0x00, 0x00, 0x42, 0xf8, 0x9d, 0xea, 0x9f, 0x5d, 0xf0, 0x43]) small = some (.value (.word 0x8da7)) := by
  decide +kernel
theorem test_crc16_empty : outcome (.crc16 []) small = some (.value (.word 0x0000)) := by decide +kernel
theorem test_verify_pipeline : outcome (verifyPipeline [0x7e, 0x31, 0x32, 0x33, 0x34, 0x35, 0x36, 0x37, 0x38, 0x39, 0x6e, 0x90, 0x7e]) small =
    some (.value (.bool true)) := by decide +kernel
theorem test_verify_byteOrder : outcome (verifyDefault [0x31, 0x32, 0x33, 0x34, 0x35, 0x36, 0x37, 0x38, 0x39, 0x90, 0x6e] 0) small =
    some (.value (.bool false)) := by decide +kernel

/-! ### The cipher (95_test_vectors.md section 3) -/

theorem test_gmul : gmul 0x57 0x83 = 0xc1 ∧ gmul 0x80 0x02 = 0x1b ∧ gmul 0xff 0x03 = 0x1a := by decide
theorem test_sbox : sbox 0x00 = 0x63 ∧ sbox 0x53 = 0xed ∧ sbox 0x7e = 0xf3 ∧ sbox 0xff = 0x16 := by decide
theorem test_rcon : (List.range 10).map (fun j => rcon (j + 1)) = [0x01, 0x02, 0x04, 0x08, 0x10, 0x20, 0x40, 0x80, 0x1b, 0x36] := by decide
theorem test_mixColumn : (⟨0xdb, 0x13, 0x53, 0x45⟩ : Word4).mix = ⟨0x8e, 0x4d, 0xa1, 0xbc⟩ := by decide
/-- `w[12]` of a 32-byte key takes the extra `SubWord`; the last words of section 3.2. -/
theorem test_keyExpansion_32 : (keyExpansion ((List.range 32).map (BitVec.ofNat 8))).drop 56 =
    [⟨0x24, 0xfc, 0x79, 0xcc⟩, ⟨0xbf, 0x09, 0x79, 0xe9⟩, ⟨0x37, 0x1a, 0xc2, 0x3c⟩, ⟨0x6d, 0x68, 0xde, 0x36⟩] := by
  decide +kernel
theorem test_aes : aes [0x2b, 0x7e, 0x15, 0x16, 0x28, 0xae, 0xd2, 0xa6, 0xab, 0xf7, 0x15, 0x88, 0x09, 0xcf, 0x4f, 0x3c]
    [0x32, 0x43, 0xf6, 0xa8, 0x88, 0x5a, 0x30, 0x8d, 0x31, 0x31, 0x98, 0xa2, 0xe0, 0x37, 0x07, 0x34] =
    [0x39, 0x25, 0x84, 0x1d, 0x02, 0xdc, 0x09, 0xfb, 0xdc, 0x11, 0x85, 0x97, 0x19, 0x6a, 0x0b, 0x32] := by decide +kernel

/-! ### DECRYPT (95_test_vectors.md section 4) -/

theorem test_decrypt : outcome (.decrypt Cfg.refKey telegram) small = some (.value (.bytes [0, 1, 2, 3, 4, 5, 6])) := by
  decide +kernel
/-- Program P4 issues no `RESET`: `DECRYPT` runs under the first configuration that `HOST` supplies. -/
theorem test_decrypt_without_reset : outcome (.decrypt Cfg.refKey telegram) (State.reset.supply Cfg.small) =
    some (.value (.bytes [0, 1, 2, 3, 4, 5, 6])) := by decide +kernel
theorem test_decrypt_otherKey : outcome (.decrypt (List.replicate 16 0xff) telegram) small =
    some (.value (.bytes [0x05, 0x1b, 0xd2, 0xc6, 0xbe, 0xe3, 0x0a])) := by decide +kernel
/-- The 17-byte output of `ctr_xor` on the bytes `00 .. 10`: the second block has the counter 3. -/
theorem test_ctrXor_17 : ctrXor Cfg.refKey fields.nonce 2 ((List.range 17).map (BitVec.ofNat 8)) =
    .result [0xf8, 0x9d, 0xea, 0x9f, 0x5d, 0xf0, 0x43, 0x5d, 0xac, 0xd5, 0x50, 0xb0, 0xa1, 0x39, 0xb0, 0xbd, 0xab] := by decide +kernel
theorem test_lastCounter : counterBlock fields.nonce 2 (2 ^ 32 - 3) =
    some [0x4b, 0x46, 0x4d, 0x10, 0x20, 0x00, 0x00, 0x01, 0x00, 0x00, 0x00, 0x42, 0xff, 0xff, 0xff, 0xff] := by decide
theorem test_counterWrap : counterBlock fields.nonce 2 (2 ^ 32 - 2) = none := by decide

/-! ### The framer (95_test_vectors.md sections 5 and 6) -/

theorem test_reset : (after .reset almost).framer = (.idle, [], 0, none) := by decide
/-- R24: `st.prev` has no part in it: the first `RX`, and not a configuration supplied, holds the session to its record. -/
theorem test_rx_session : (after (.rx 0x7e) (small.supply Cfg.wnref)).session = some Cfg.wnref ∧
    ({ small with prev := some 0x7e }.supply Cfg.wnref).cfgKept := by decide
theorem test_reset_session : (after .reset (small.supply Cfg.wnref)).session = some Cfg.wnref := by decide
theorem test_rx_start : (after (.rx 0xa0) { small with prev := some 0x7e }).framer =
    (.collecting, [(0, 0x7e), (1, 0xa0)], 2, some 0xa0) := by decide
theorem test_rx_dispatch : (after (.rx 0x7e) almost).framer = (.idle, [], 0, some 0x7e) ∧
    outcome (.rx 0x7e) almost = some (.event (.decoded [0, 1, 2, 3, 4, 5, 6])) := by decide +kernel
theorem test_raw_illegal : (stepped [0x02] small).trace = [.refusal .illegalCommand] := by decide
/-- The outcome of `FEED` on the telegram of section 5.1 (R74). -/
theorem test_feedOutcome : feedOutcome telegram small = [.event (.decoded [0, 1, 2, 3, 4, 5, 6])] := by decide +kernel
theorem test_feedOutcome_incomplete : feedOutcome [0x00, 0x7e, 0xa0] small = [] := by decide
/-- Program P4, last operation: an `RX` under an invalid configuration leaves even `st.prev` alone. -/
theorem test_configInvalid : after (.rx 0x7e) { small with cfg := { Cfg.small with frameLen := 16 } } =
    { small with cfg := { Cfg.small with frameLen := 16 }, trace := [.refusal .configInvalid] } := by decide

/-! ### The host side (95_test_vectors.md section 7 and program P3) -/

theorem test_pdecode_wn : outcome (.pdecode .wn 2 plaintextP3) small = some (.value (.reading
    { aInWh := some 4490428, aOutWh := some 257, rInVarh := some 65535, rOutVarh := some 65536, pInW := some 500,
      pOutW := some 0, qInVar := some 4294967295, qOutVar := some 42,
      timestamp := ['2', '0', '2', '1', '-', '0', '8', '-', '0', '1', 'T', '1', '2', ':', '0', '5', ':', '5', '0', 'Z'] })) := by
  decide +kernel
theorem test_pdecode_kn : outcome (.pdecode .kn (-1) plaintextKn) small = some (.value (.reading
    { aInWh := some 1, aOutWh := some 2, rInVarh := some 3, rOutVarh := some 4, pInW := some 5, pOutW := some 6,
      qInVar := none, qOutVar := none,
      timestamp := ['2', '0', '2', '2', '-', '1', '2', '-', '3', '1', 'T', '2', '4', ':', '5', '9', ':', '5', '8', 'Z'] })) := by
  decide +kernel
theorem test_tsnorm_negative : outcome (.tsnorm 2021 8 1 1 5 50 2) small =
    some (.value (.text ['2', '0', '2', '1', '-', '0', '8', '-', '0', '1', 'T', '-', '1', ':', '0', '5', ':', '5', '0', 'Z'])) := by decide
theorem test_tsnorm_wide : outcome (.tsnorm 65535 255 255 255 255 255 0) small =
    some (.value (.text ['6', '5', '5', '3', '5', '-', '2', '5', '5', '-', '2', '5', '5', 'T', '2', '5', '5', ':', '2', '5', '5', ':', '2', '5', '5', 'Z'])) := by decide
theorem test_ube : ube [0x00, 0x44, 0x84, 0xbc] = 4490428 ∧ ube [0x80, 0x00, 0x00, 0x00] = 2147483648 ∧ ube [] = 0 := by decide
/-- Program P3 with `RXP` for the last byte: the Reading itself (R200). -/
theorem test_rxpOutcome : rxpOutcome .wn 2 (.event (.decoded plaintextP3)) = .event (.reading
    { aInWh := some 4490428, aOutWh := some 257, rInVarh := some 65535, rOutVarh := some 65536, pInW := some 500,
      pOutW := some 0, qInVar := some 4294967295, qOutVar := some 42,
      timestamp := ['2', '0', '2', '1', '-', '0', '8', '-', '0', '1', 'T', '1', '2', ':', '0', '5', ':', '5', '0', 'Z'] }) := by
  decide +kernel

/-! ### Responses and lines of a program -/

/-- The responses of section 6. -/
theorem test_response_bytes : OpOutcome.response (.event (.decoded [0, 1, 2, 3, 4, 5, 6])) =
    some [0x02, 0x00, 0x07, 0x00, 0x01, 0x02, 0x03, 0x04, 0x05, 0x06] := by decide
theorem test_response_refusal : OpOutcome.response (.refusal .badKeyLength) = some [0xff, 0x04] := by decide
theorem test_response_text : OpOutcome.response (.value (.text ['2', 'Z'])) = some [0x01, 0x00, 0x02, 0x32, 0x5a] := by decide
/-- `RX 0x7e ; comment`. -/
theorem test_assemble_rx : assemble ['R', 'X', ' ', '0', 'x', '7', 'e', ' ', ' ', ';', ' ', 'c'] = some (.operation (.rx 0x7e)) := by decide
/-- `FEED`, with a byte string between braces. -/
theorem test_assemble_feed : assemble (['F', 'E', 'E', 'D', ' '] ++ [openBrace] ++ ['7', 'e', ' ', 'a', '0'] ++ [closeBrace]) =
    some (.feed [0x7e, 0xa0]) := by decide
theorem test_assemble_pdecode : assemble (['P', 'D', 'E', 'C', 'O', 'D', 'E', ' ', 'K', 'N', ',', ' ', '-', '1', ',', ' '] ++ [openBrace] ++ ['1', '7'] ++ [closeBrace]) =
    some (.operation (.pdecode .kn (-1) [0x17])) := by decide +kernel
theorem test_assemble_verify : assemble (['V', 'E', 'R', 'I', 'F', 'Y', ' '] ++ [openBrace] ++ ['0', '0', ' ', '0', '0'] ++ [closeBrace] ++ [',', ' ', '0']) =
    some (.operation (.verify [0, 0] 0 2 0)) := by decide +kernel
/-- A telegram's fields make the telegram of section 5.1. -/
theorem test_telegram_frame : fields.frame = telegram := by decide +kernel
theorem test_x25 : crcX25 [0x31, 0x32, 0x33, 0x34, 0x35, 0x36, 0x37, 0x38, 0x39] = 0x906e := by decide +kernel

/-! ### Program P3 through the dispatch: the FCS in three parts, the decryption, the event -/

theorem test_p3_crc_part1 : ((slice telegramP3 1 102).take 34).foldl crcByteStep crcInit = 0x4447 := by decide +kernel
theorem test_p3_crc_part2 : (((slice telegramP3 1 102).drop 34).take 34).foldl crcByteStep 0x4447 = 0xa4a9 := by decide +kernel
theorem test_p3_crc_part3 : ((slice telegramP3 1 102).drop 68).foldl crcByteStep 0xa4a9 = 0x34a2 := by decide +kernel
theorem test_p3_crcFinal : crcFinal 0x34a2 = 0xd3ba := by decide
/-- The FCS of the telegram of program P3. -/
theorem test_p3_crc : calcCrc16 (slice telegramP3 1 102) = 0xd3ba := by
  have h : slice telegramP3 1 102 = (slice telegramP3 1 102).take 34 ++ (((slice telegramP3 1 102).drop 34).take 34 ++
      (slice telegramP3 1 102).drop 68) := by decide
  rw [h, calcCrc16, List.foldl_append, List.foldl_append, test_p3_crc_part1, test_p3_crc_part2, test_p3_crc_part3,
    test_p3_crcFinal]
theorem test_p3_decrypt : decryptFrame Cfg.wnref telegramP3 Cfg.refKey = .result plaintextP3 := by decide +kernel
theorem test_p3_intact : intact telegramP3 := by
  have hg : trailerValue (slice telegramP3 102 104) = 0xd3ba := by decide
  have h : ∀ n, telegramP3.length = n → calcCrc16 (slice telegramP3 1 (n - 3)) = 0xd3ba →
      trailerValue (slice telegramP3 (n - 3) (n - 1)) = 0xd3ba → intact telegramP3 := fun n hn hc ht => by
    subst hn
    rw [intact, hc, ht]
    rfl
  exact h 105 (by decide) test_p3_crc hg
/-- The event of program P3. -/
theorem test_p3_dispatch : dispatch Cfg.wnref telegramP3 = .ok (.decoded plaintextP3) :=
  dispatch_of_decrypted (verifyFrame_eq_true_iff.mpr ⟨by decide, test_p3_intact⟩) test_p3_decrypt

/-- Every operation answers a next state, the one `after` names. -/
theorem exec_eq_after (i : Instr) (s : State) : exec i s = .next (after i s) := by
  rcases exec_cases i s with ⟨-, h⟩ | ⟨b, -, h⟩ | ⟨-, -, o, h⟩ <;> simp only [after, h]

/-! ### Witnesses: for each statement with hypotheses, a state and operands that meet them -/

theorem witness_DecodeOfEncodeIsIdentity :
    (Instr.tsnorm 65535 255 255 255 255 255 (-128)).wellFormed ∧ (Instr.pdecode (.unsupported 2) 127 [0xff]).wellFormed ∧
      (Instr.verify [0x7e] 65535 65535 65535).wellFormed := by decide
theorem witness_EncodeOfDecodeIsIdentity : ∃ i, decode [0x40, 0x01, 0xff, 0x00, 0x01, 0x17] = .ok i := ⟨_, test_decode_pdecode⟩
theorem witness_OperandTypesReadAsStated :
    ([0xaa, 0xbb] : Bytes).length = (0x00 : Byte).toNat * 256 + (0x02 : Byte).toNat ∧
    (Operand.u8 255).fits ∧ (Operand.s8 (-128)).fits ∧ (Operand.s8 127).fits ∧ (Operand.u16 65535).fits ∧
    (Operand.bytes []).fits := by decide
/-- One illegal command of each of the four kinds, each issued alone. -/
theorem witness_IllegalCommandsAreTurnedAway :
    (small.issue []).inputs = .command [] :: [] ∧
    ((small.issue [0x02]).inputs = .command [0x02] :: [] ∧
      (0x02 : Byte) ∉ ([0x00, 0x01, 0x10, 0x11, 0x12, 0x20, 0x40, 0x41] : Bytes)) ∧
    ((small.issue [0x01]).inputs = .command [0x01] :: [] ∧ ([0x01] : Bytes) ++ [0x7e] = encode (.rx 0x7e)) ∧
    ((small.issue [0x01, 0x01, 0x02]).inputs = .command [0x01, 0x01, 0x02] :: [] ∧
      ([0x01, 0x01, 0x02] : Bytes) = encode (.rx 0x01) ++ [0x02]) := by decide
theorem witness_CommandLengthFromFront : (Instr.crc16 [0x31, 0x32]).wellFormed := by decide
theorem witness_StepRunsTheDecodedOperation :
    (small.issue [0x01, 0x7e]).inputs = .command [0x01, 0x7e] :: [] ∧ decode [0x01, 0x7e] = .ok (.rx 0x7e) ∧
    (Instr.rx 0x7e).wellFormed ∧ (small.issue (encode (.rx 0x7e))).inputs = .command (encode (.rx 0x7e)) :: [] ∧
    ({ small with inputs := [.configure Cfg.wnref] } : State).inputs = .configure Cfg.wnref :: [] ∧ small.inputs = [] := by
  decide
theorem witness_PureOperationsWriteNoState :
    Instr.mirror 0x31 ≠ .reset ∧ (∀ b, Instr.mirror 0x31 ≠ .rx b) ∧ exec (.mirror 0x31) almost = .next (after (.mirror 0x31) almost) :=
  ⟨nofun, nofun, exec_eq_after _ _⟩

theorem small_inv : small.Inv := ⟨rfl, rfl, rfl⟩
/-- The state one step away from a dispatch meets the invariant, is collecting, accepts its configuration, and its next byte
completes the telegram. -/
theorem almost_inv : almost.Inv := by
  refine ⟨by decide, ?_⟩
  show _ ∧ _ ∧ _ ∧ _ ∧ _
  decide
theorem almost_valid : cfgValid almost.cfg ∧ almost.cfgKept := by decide
theorem almost_collecting : almost.mode = .collecting ∧ almost.pos + 1 = almost.cfg.frameLen := by decide

/-- Each refusal but the counter's, under the invariant. -/
theorem witness_RefusalsHaveTheirCause :
    small.Inv ∧ (almost.supply Cfg.wnref).Inv ∧
    (∃ t, exec (.rx 0x7e) (almost.supply Cfg.wnref) = .next t ∧ t.trace = [.refusal .configInvalid]) ∧
    (∃ t, exec (.decrypt Cfg.refKey []) (almost.supply Cfg.wnref) = .next t ∧ t.trace = [.refusal .configInvalid]) ∧
    (∃ t, exec (.verify [] 0 3 0) small = .next t ∧ t.trace = [.refusal .badTrailerLength]) ∧
    (∃ t, exec (.decrypt [] []) small = .next t ∧ t.trace = [.refusal .badKeyLength]) ∧
    (∃ t, exec (.decrypt Cfg.refKey [0x7e, 0x00, 0x7e]) small = .next t ∧ t.trace = [.refusal .unverified]) :=
  ⟨small_inv, almost_inv.supply _, ⟨_, exec_eq_after _ _, by decide⟩, ⟨_, exec_eq_after _ _, by decide⟩,
    ⟨_, exec_eq_after _ _, by decide⟩, ⟨_, exec_eq_after _ _, by decide⟩,
    ⟨_, exec_eq_after _ _, by decide +kernel⟩⟩

/-- A frame whose ciphertext has any number of bytes, intact. -/
def longFrame (n : Nat) : Bytes :=
  0x7e :: (List.replicate n 0x00 ++ be16 (calcCrc16 (List.replicate n 0x00)).toNat ++ [0x7e])

theorem longFrame_intact (n : Nat) : intact (longFrame n) := intact_of_fcs 0x7e 0x7e (List.replicate n 0x00)

theorem longFrame_length (n : Nat) : (longFrame n).length = n + 4 := by simp [longFrame, be16]

/-- The refusal of the counter: a frame one byte longer than the counter allows, `SMALL`. -/
theorem witness_counterWrap (n : Nat) (hn : n + 4 = (2 ^ 32 - 2) * 16 + Cfg.small.ctOff + 3 + 1) :
    exec (.decrypt Cfg.refKey (longFrame n)) small = .next { small with trace := [.refusal .counterWrap] } := by
  have hc : Cfg.small.ctOff = 14 := rfl
  have hl := longFrame_length n
  have hk : keyLengthOk Cfg.refKey := by decide
  have hok : small.configOk := by decide
  have hd : decryptVerified Cfg.small Cfg.refKey (longFrame n) = .refuse .counterWrap := by
    rw [decryptVerified, if_neg (not_not.mpr hk),
      if_neg (not_not.mpr (verifyFrame_eq_true_iff.mpr ⟨by omega, longFrame_intact n⟩)),
      decryptFrame_eq hk (by omega)]
    apply ctrXor_refused
    rw [length_frameCiphertext, counterFits_iff (by omega)]
    simp only [ctrInit]
    omega
  show execDecrypt Cfg.refKey (longFrame n) small = _
  rw [execDecrypt, if_neg (not_not.mpr hok), show small.cfg = Cfg.small from rfl, hd]
  rfl

/-- Each failure a pure operation raises, and the failure of a dispatch, under the invariant. -/
theorem witness_FailuresHaveTheirCause :
    small.Inv ∧ almost.Inv ∧
    (∃ t, exec (.pdecode (.unsupported 7) 2 []) small = .next t ∧ t.trace = [.failure .unsupportedProfileError]) ∧
    (∃ t, exec (.verify [0x7e, 0x00, 0x7e] 1 2 1) small = .next t ∧ t.trace = [.failure .malformedFrameError]) ∧
    (∃ t, exec (.decrypt Cfg.refKey [0x7e, 0x00, 0x00, 0x7e]) small = .next t ∧ t.trace = [.failure .malformedFrameError]) ∧
    (∃ t, exec (.pdecode .wn 0 (List.replicate 73 0)) small = .next t ∧ t.trace = [.failure .malformedFrameError]) ∧
    (∃ t, exec (.pdecode .kn 0 (List.replicate 85 0)) small = .next t ∧ t.trace = [.failure .malformedFrameError]) ∧
    (∃ t, exec (.rx 0x7e) (collecting Cfg.small (0x7e :: 0xa0 :: List.replicate 21 0)) = .next t ∧
      t.trace = [.event (.fail .checksumError)]) :=
  ⟨small_inv, almost_inv, ⟨_, exec_eq_after _ _, by decide⟩,
    ⟨_, exec_eq_after _ _, by decide⟩,
    ⟨_, exec_eq_after _ _, by decide +kernel⟩,
    ⟨_, exec_eq_after _ _, by decide⟩,
    ⟨_, exec_eq_after _ _, by decide⟩,
    ⟨_, exec_eq_after _ _, by decide +kernel⟩⟩

theorem witness_VerifyComparesTheTrailer :
    (1 : Nat) ≠ 2 ∧ (3 : Nat) ≠ 2 ∧ ([0x00] : Bytes).length < 0 + 2 + 0 ∧ ([0x7e, 0x00, 0x00, 0x7e] : Bytes).length < 2 + 2 + 1 := by
  decide
theorem witness_VerifyRoundTrip :
    ([0x90, 0x6e] : Bytes) ≠ be16 (calcCrc16 [0x31, 0x32, 0x33, 0x34, 0x35, 0x36, 0x37, 0x38, 0x39]).toNat := by decide +kernel
theorem witness_OneByteErrorIsDetected : (0x31 : Byte) ≠ 0x30 := by decide
theorem witness_KeyExpansionRecurrence :
    ((List.replicate 16 (0x00 : Byte)).length, 4, 10) ∈ [(16, 4, 10), (24, 6, 12), (32, 8, 14)] ∧
    ((List.replicate 24 (0x00 : Byte)).length, 6, 12) ∈ [(16, 4, 10), (24, 6, 12), (32, 8, 14)] ∧
    ((List.replicate 32 (0x00 : Byte)).length, 8, 14) ∈ [(16, 4, 10), (24, 6, 12), (32, 8, 14)] := by decide
theorem witness_RoundTransformationsEntrywise :
    ∃ key, (keyExpansion Cfg.refKey)[4 * 10 + 3]? = some key ∧ key.bytes = [0x4d, 0x2b, 0x30, 0xc5] :=
  ⟨⟨0x4d, 0x2b, 0x30, 0xc5⟩, by decide +kernel, rfl⟩
theorem witness_StateLayoutAndShiftRows : (List.replicate 16 (0x00 : Byte)).length = 16 := by decide
theorem witness_CounterBlockLayout :
    fields.nonce.length = 12 ∧ 2 + 0xFFFFFFFD ≤ 0xFFFFFFFF ∧ 0xFFFFFFFF < 2 + 0xFFFFFFFE ∧ 0xFFFFFFFF < 0x100000000 ∧
    keyLengthOk Cfg.refKey ∧ Cfg.small.ctOff + 3 ≤ (telegram.take 17).length := by decide
/-- At the last counter: 16 bytes fit, 17 do not. -/
theorem witness_CtrXorIsBytewise : 0xFFFFFFFF + ((List.replicate 16 (0x00 : Byte)).length - 1) / 16 ≤ 0xFFFFFFFF := by decide
theorem witness_CounterNeverWraps :
    List.replicate 17 (0x00 : Byte) ≠ [] ∧ 0xFFFFFFFF < 0xFFFFFFFF + ((List.replicate 17 (0x00 : Byte)).length - 1) / 16 := by
  decide
theorem witness_CtrXorTwiceRestores : ∃ out, ctrXor Cfg.refKey fields.nonce 2 [0x00] = .result out :=
  ⟨[0xf8], by decide +kernel⟩
/-- The five clauses under `SMALL`: a key of 15 bytes; no FCS; a frame below `CT_OFF + 3`; the longest frame the counter
allows and the shortest it does not; a frame of exactly `CT_OFF + 3` bytes. -/
theorem witness_DecryptChecksThenDecrypts :
    cfgValid small.cfg ∧ small.cfgKept ∧ Cfg.refKey.length ∈ [16, 24, 32] ∧
    (List.replicate 15 (0x00 : Byte)).length ∉ [16, 24, 32] ∧
    ¬(4 ≤ ([0x7e, 0x00, 0x7e] : Bytes).length ∧ intact [0x7e, 0x00, 0x7e]) ∧
    (4 ≤ (longFrame 12).length ∧ intact (longFrame 12) ∧ (longFrame 12).length < small.cfg.ctOff + 3) ∧
    (intact (longFrame ((2 ^ 32 - 2) * 16 + 14)) ∧
      (2 ^ 32 - 2) * 16 + small.cfg.ctOff + 3 < (longFrame ((2 ^ 32 - 2) * 16 + 14)).length) ∧
    (intact (longFrame ((2 ^ 32 - 2) * 16 + 13)) ∧
      (longFrame ((2 ^ 32 - 2) * 16 + 13)).length ≤ (2 ^ 32 - 2) * 16 + small.cfg.ctOff + 3) ∧
    (intact (longFrame 13) ∧ small.cfg.ctOff + 3 ≤ (longFrame 13).length ∧
      (longFrame 13).length ≤ (2 ^ 32 - 2) * 16 + small.cfg.ctOff + 3) := by
  have hc : small.cfg.ctOff = 14 := rfl
  simp only [longFrame_length, hc]
  exact ⟨by decide, by decide, by decide, by decide, by decide, ⟨by decide, longFrame_intact _, by decide⟩,
    ⟨longFrame_intact _, by decide⟩, ⟨longFrame_intact _, by decide⟩, longFrame_intact _, by decide, by decide⟩
theorem witness_DecryptDoesNotReadTheConfiguredKey :
    cfgValid small.cfg ∧ small.cfgKept ∧
      cfgValid { small.cfg with key := List.replicate 32 0xff, frameLen := 17 } := by decide
/-- The four clauses: no start, a start, a byte stored, the last byte. -/
theorem witness_RxTakesItsCase :
    (cfgValid small.cfg ∧ small.cfgKept ∧ small.mode = .idle ∧ ¬(small.prev = some 0x7e ∧ (0xa0 : Byte) = 0xa0)) ∧
    (({ small with prev := some 0x7e } : State).mode = .idle ∧ ({ small with prev := some 0x7e } : State).prev = some 0x7e) ∧
    ((collecting Cfg.small [0x7e, 0xa0]).Inv ∧ (collecting Cfg.small [0x7e, 0xa0]).mode = .collecting ∧
      (collecting Cfg.small [0x7e, 0xa0]).pos + 1 ≠ (collecting Cfg.small [0x7e, 0xa0]).cfg.frameLen) ∧
    (almost.Inv ∧ almost.mode = .collecting ∧ almost.pos + 1 = almost.cfg.frameLen) :=
  ⟨by decide, by decide, ⟨⟨by decide, by show _ ∧ _ ∧ _ ∧ _ ∧ _; decide⟩, by decide⟩, almost_inv, by decide⟩
/-- An invalid configuration, and a changed one. -/
theorem witness_InvalidConfigurationIsRefused :
    ¬(cfgValid (small.supply { Cfg.small with frameLen := 16 }).cfg ∧
      (small.supply { Cfg.small with frameLen := 16 }).cfgKept) ∧
    ¬(cfgValid (almost.supply Cfg.wnref).cfg ∧ (almost.supply Cfg.wnref).cfgKept) := by decide
/-- A session begun by a `RESET`, and one created without it. -/
theorem witness_ChangedConfigurationNeedsReset : Cfg.wnref ≠ almost.cfg ∧ cfgValid Cfg.wnref ∧
    almost.session = some almost.cfg ∧ Cfg.wnref ≠ small.cfg ∧ small.session = none ∧ cfgValid small.cfg ∧ small.Inv :=
  ⟨by decide, by decide, by decide, by decide, by decide, by decide, small_inv⟩
/-- The shortest buffer and the last byte that is only stored. -/
theorem witness_RxWritesOneByteOfTheBuffer :
    (cfgValid Cfg.small ∧ (collecting Cfg.small [0x7e, 0xa0]).Inv ∧ (collecting Cfg.small [0x7e, 0xa0]).pos + 1 ≠ 24) ∧
    ((collecting Cfg.small (telegram.take 22)).Inv ∧ (collecting Cfg.small (telegram.take 22)).pos + 1 ≠ 24) := by
  refine ⟨⟨by decide, ⟨by decide, ?_⟩, by decide⟩, ⟨by decide, ?_⟩, by decide⟩ <;>
    (show _ ∧ _ ∧ _ ∧ _ ∧ _; decide)
/-- A frame that is intact and one that is not. -/
theorem witness_DispatchHasTwoOutcomes :
    cfgValid Cfg.small ∧ telegram.length = Cfg.small.frameLen ∧ intact telegram ∧
    (telegram.set 15 0x9c).length = Cfg.small.frameLen ∧ ¬intact (telegram.set 15 0x9c) := by decide +kernel
theorem witness_SelfResetAfterEveryDispatch : (cfgValid almost.cfg ∧ almost.cfgKept) ∧ almost.Inv ∧
    almost.mode = .collecting ∧ almost.pos + 1 = almost.cfg.frameLen := ⟨almost_valid, almost_inv, almost_collecting⟩
theorem witness_EndFlagIsNotExamined : (cfgValid almost.cfg ∧ almost.cfgKept) ∧ almost.Inv ∧
    almost.mode = .collecting ∧ almost.pos + 1 = almost.cfg.frameLen := ⟨almost_valid, almost_inv, almost_collecting⟩
theorem witness_SharedFlagStartsTheNextTelegram : (cfgValid almost.cfg ∧ almost.cfgKept) ∧ almost.Inv ∧
    almost.mode = .collecting ∧ almost.pos + 1 = almost.cfg.frameLen := ⟨almost_valid, almost_inv, almost_collecting⟩
/-- As many bytes as fit before the last one. -/
theorem witness_CollectedBytesAreStoredUnchanged :
    cfgValid Cfg.small ∧ (collecting Cfg.small [0x7e, 0xa0]).Inv ∧ (collecting Cfg.small [0x7e, 0xa0]).mode = .collecting ∧
      (collecting Cfg.small [0x7e, 0xa0]).pos + (List.replicate 21 (0x7e : Byte)).length < Cfg.small.frameLen := by
  refine ⟨by decide, ⟨by decide, ?_⟩, by decide⟩
  show _ ∧ _ ∧ _ ∧ _ ∧ _
  decide
theorem witness_OnlyTheStartPairStarts :
    cfgValid small.cfg ∧ small.cfgKept ∧ small.mode = .idle ∧
    ∀ i : Nat, ¬((small.prev.toList ++ [0xa0, 0x7e, 0x00, 0xa0])[i]? = some (0x7e : Byte) ∧
      (small.prev.toList ++ [0xa0, 0x7e, 0x00, 0xa0])[i + 1]? = some (0xa0 : Byte)) := by
  refine ⟨by decide, by decide, by decide, fun i => ?_⟩
  rcases i with _ | _ | _ | _ | i
  · decide
  · decide
  · decide
  · decide
  · rintro ⟨h, -⟩
    simp [small, State.reset] at h
theorem witness_StreamCausesExactlyOneDispatch :
    cfgValid small.cfg ∧ small.cfgKept ∧ small.mode = .idle ∧
      (List.replicate 22 (0x7e : Byte)).length + 2 = small.cfg.frameLen := by decide
theorem witness_TelegramLayout : cfgValid Cfg.small ∧ fields.fits Cfg.small := by decide
theorem witness_TelegramIsDecodedEndToEnd :
    cfgValid small.cfg ∧ small.cfgKept ∧ small.mode = .idle ∧ fields.fits small.cfg ∧
      ctrXor small.cfg.key fields.nonce 2 [0, 1, 2, 3, 4, 5, 6] = .result fields.ciphertext := by
  refine ⟨by decide, by decide, by decide, by decide, ?_⟩
  decide +kernel
/-- The telegram of program P3 in its fields. -/
def fieldsP3 : Telegram :=
  { header := slice telegramP3 2 14, systemTitle := slice telegramP3 14 22, gap1 := slice telegramP3 22 24,
    invocationCounter := slice telegramP3 24 28, gap2 := [], ciphertext := slice telegramP3 28 102, endFlag := 0x7e }
theorem witness_TelegramYieldsItsReading :
    (cfgValid State.reset.cfg ∧ State.reset.cfgKept ∧ State.reset.mode = .idle) ∧
    fieldsP3.fits State.reset.cfg ∧ State.reset.cfg.profile = .wn ∧ 74 ≤ plaintextP3.length ∧
    ctrXor State.reset.cfg.key fieldsP3.nonce 2 plaintextP3 = .result fieldsP3.ciphertext :=
  ⟨by decide, by decide, by decide, by decide, by decide +kernel⟩
theorem witness_PureOperationsDoNotDisturbRx :
    Instr.tsnorm 2021 8 1 14 5 50 2 ≠ .reset ∧ ∀ b, Instr.tsnorm 2021 8 1 14 5 50 2 ≠ .rx b := ⟨nofun, nofun⟩
/-- One byte too short and just long enough, for both profiles. -/
theorem witness_PdecodeReadsTheProfileTable :
    (List.replicate 73 (0 : Byte)).length < 74 ∧ 74 ≤ (List.replicate 74 (0 : Byte)).length ∧
    (List.replicate 85 (0 : Byte)).length < 86 ∧ 86 ≤ (List.replicate 86 (0 : Byte)).length := by decide
theorem witness_KnReactivePowerIsAbsent :
    (∃ r, pdecode plaintextKn .kn (-1) = .result r) ∧ ∃ r, pdecode plaintextP3 .wn 2 = .result r :=
  ⟨⟨_, pdecode_of_le (t := tableKn) rfl (by decide) _⟩, ⟨_, pdecode_of_le (t := tableWn) rfl (by decide) _⟩⟩
/-- A counter at its largest value. -/
theorem witness_ReadingCountersAreU32 : ∃ r, pdecode plaintextP3 .wn 2 = .result r ∧ r.qInVar = some (2 ^ 32 - 1) :=
  ⟨_, pdecode_of_le (t := tableWn) rfl (by decide) _, by decide⟩
theorem witness_NumeralsAreShortestDecimal : (dec 0).head? = some '0' ∧ 9 < 10 ∧ 10 ≤ 10 ∧ 0 < 1 := by decide
/-- A decoded telegram whose plaintext is too short for the profile; `test_p3_dispatch` and `test_rxpOutcome` are one whose
plaintext is long enough. -/
theorem witness_RxpComposesRxAndPdecode :
    (rx 0x7e almost).2 = .event (.decoded [0, 1, 2, 3, 4, 5, 6]) ∧
    pdecode [0, 1, 2, 3, 4, 5, 6] almost.cfg.profile 2 = .raise .malformedFrameError ∧
    (∃ r, pdecode plaintextP3 Cfg.wnref.profile 2 = .result r) ∧ (∀ pt, (rx 0x00 small).2 ≠ .event (.decoded pt)) := by
  refine ⟨by decide +kernel, by decide, ⟨_, pdecode_of_le (t := tableWn) rfl (by decide) _⟩, fun pt => ?_⟩
  have h : (rx 0x00 small).2 = .none := by decide
  rw [h]
  nofun
/-- The state one byte before the dispatch of program P3: the outcome of its last `RX` is `DECODED`. -/
theorem witness_RxpComposesRxAndPdecode_reading :
    (rx 0x7e (collecting Cfg.wnref telegramP3.dropLast)).2 = .event (.decoded plaintextP3) := by
  have hb : (collecting Cfg.wnref telegramP3.dropLast).buf.bytes ++ [0x7e] = telegramP3 := by decide +kernel
  rw [rx_of_dispatch (ev := .decoded plaintextP3) (by decide) rfl (by decide +kernel)
    (hb.symm ▸ test_p3_dispatch)]
theorem witness_ResponseEncoding :
    ([0x00] : Bytes).length < 2 ^ 16 ∧ (['Z'] : Text).length < 2 ^ 16 ∧ (∀ c ∈ (['Z'] : Text), c.toNat < 128) ∧
    (readingOf tableWn 2 plaintextP3).timestamp.length < 2 ^ 16 ∧
    ∀ c ∈ (readingOf tableWn 2 plaintextP3).timestamp, c.toNat < 128 := by
  have ascii {t : Text} (h : t.all (fun c => decide (c.toNat < 128)) = true) : ∀ c ∈ t, c.toNat < 128 :=
    fun c hc => of_decide_eq_true (List.all_eq_true.mp h c hc)
  exact ⟨by decide, by decide, ascii (by decide), by decide, ascii (by decide +kernel)⟩
theorem witness_EveryStepKeepsTheInvariant :
    (almost.issue [0x01, 0x7e]).Inv ∧ ∃ t, step (almost.issue [0x01, 0x7e]) = .next t :=
  ⟨almost_inv, stepped [0x01, 0x7e] almost, rfl⟩
/-- A key of each length, and a block. -/
theorem witness_AesComposesItsRounds : (Cfg.refKey.length, 10) ∈ [(16, 10), (24, 12), (32, 14)] ∧
    ((List.replicate 24 (0x00 : Byte)).length, 12) ∈ [(16, 10), (24, 12), (32, 14)] ∧
    ((List.replicate 32 (0x00 : Byte)).length, 14) ∈ [(16, 10), (24, 12), (32, 14)] ∧
    (List.replicate 16 (0x00 : Byte)).length = 16 := by decide
/-- Right after reset, and after a first configuration has been supplied. -/
theorem witness_ConfigurationBeforeTheFirstRxNeedsNoReset :
    (State.reset.session = none ∧ State.reset.mode = .idle ∧ State.reset.prev = none ∧ cfgValid Cfg.small) ∧
    ((State.reset.supply Cfg.small).session = none ∧ (State.reset.supply Cfg.small).mode = .idle ∧
      (State.reset.supply Cfg.small).prev = none ∧ cfgValid Cfg.wnref) := by decide

end Sys2Proof.Tests
end

section
/-! PROOFS. The reset values of the framer (10_state.md). -/

namespace Sys2Proof.Machine

open Sys2Proof

/-- What `RESET` does, in any state (R161): the framer is reset, the session held, and the outcome `none` recorded. -/
theorem exec_reset (s : State) : exec .reset s = .next (s.resetFramer.hold.answer .none) := rfl

/-- Settles O32: the state at creation has the values of R30 by definition; after a `RESET` they are those that
`State.resetFramer` writes, since neither holding the session nor recording the outcome touches the framer. -/
theorem resetStateValues : Obligations.ResetStateValues := by
  unfold Obligations.ResetStateValues
  refine ⟨⟨rfl, rfl, rfl, rfl⟩, fun s => ⟨_, exec_reset s, ?_⟩⟩
  simp

end Sys2Proof.Machine
end

section
/-! PROOFS. The operand types of a command (30_encoding.md). -/

namespace Sys2Proof

/-- A `bytes` operand is read from the front as exactly the bytes its length announces, whatever follows them (R67). -/
theorem OperandType.decode_bytes_append {b0 b1 : Byte} {bs : Bytes} (h : bs.length = b0.toNat * 256 + b1.toNat)
    (rest : Bytes) : OperandType.bytes.decode (b0 :: b1 :: (bs ++ rest)) = some (.bytes bs, rest) := by
  simp [OperandType.decode, ← h]

/-- Settles O4: each clause of the table is one equation of `OperandType.decode`; the read-back is
`OperandType.decode_encode`. -/
theorem operandTypesReadAsStated : Obligations.OperandTypesReadAsStated := by
  unfold Obligations.OperandTypesReadAsStated
  exact ⟨fun _ _ => rfl, fun _ _ => rfl, fun _ _ _ => rfl, fun _ _ _ rest h => OperandType.decode_bytes_append h rest,
    fun _ rest h => OperandType.decode_encode h rest⟩

end Sys2Proof
end

section
/-! PROOFS. The bytes of a telegram are stored as they come (30_encoding.md). -/

namespace Sys2Proof.Machine

open Sys2Proof

/-- Settles O42: `execAll_feed_of_collecting` names the state that the fed bytes lead to; its buffer is read off as a byte
string. -/
theorem collectedBytesAreStoredUnchanged : Obligations.CollectedBytesAreStoredUnchanged := by
  unfold Obligations.CollectedBytesAreStoredUnchanged
  intro data s hvalid hkept _ hmode hpos
  exact ⟨_, execAll_feed_of_collecting data s ⟨hvalid, hkept⟩ hmode hpos, Memory.bytes_foldl s.buf data, hmode, rfl, rfl⟩

end Sys2Proof.Machine
end

section
/-! PROOFS. The responses (30_encoding.md). -/

namespace Sys2Proof.Machine

open Sys2Proof

/-! ### Payloads (R71) -/

/-- A byte string whose length is a `u16` is serialised as `bytes` (R67, R71). -/
theorem bytesPayload_of_fits {bs : Bytes} (h : fitsBytes bs) : bytesPayload bs = some (be16 bs.length ++ bs) := if_pos h

/-- A character string is serialised as `bytes`, one byte a character, whatever the characters (R71; log entry 12). -/
theorem bytesPayload_asciiBytes {t : Text} (h : t.length < 2 ^ 16) :
    bytesPayload (asciiBytes t) = some (be16 t.length ++ asciiBytes t) := by
  have hlen : (asciiBytes t).length = t.length := List.length_map _
  rw [bytesPayload_of_fits (hlen.trans_lt h), hlen]

/-- A counter is serialised as its presence and its value, 0 when it is absent (R71). -/
theorem counterPayload_eq (c : Option Nat) : counterPayload c = (if c.isSome then 1 else 0) :: be32 (c.getD 0) := by
  cases c <;> rfl

/-- A Reading is serialised as its eight counters and its timestamp (R71). -/
theorem Reading.payload_eq {r : Reading} (h : r.timestamp.length < 2 ^ 16) :
    r.payload = some ([r.aInWh, r.aOutWh, r.rInVarh, r.rOutVarh, r.pInW, r.pOutW, r.qInVar, r.qOutVar].flatMap
      (fun c => (if c.isSome then 1 else 0) :: be32 (c.getD 0)) ++
      (be16 r.timestamp.length ++ asciiBytes r.timestamp)) := by
  rw [Reading.payload, bytesPayload_asciiBytes h, funext counterPayload_eq, Option.map_some]

/-! ### Responses (R71) -/

/-- The response to a value is the status `0x01` and the value's payload (R71). -/
theorem response_value {v : Value} {p : Bytes} (h : v.payload = some p) :
    OpOutcome.response (.value v) = some (0x01 :: p) := by
  rw [OpOutcome.response, h, Option.map_some]

/-- The response to `DECODED` is the status `0x02` and the plaintext as `bytes` (R71). -/
theorem response_decoded {pt : Bytes} (h : fitsBytes pt) :
    OpOutcome.response (.event (.decoded pt)) = some (0x02 :: (be16 pt.length ++ pt)) := by
  rw [OpOutcome.response, bytesPayload_of_fits h, Option.map_some]

/-- The response to a CRC has the two bytes of the number, the more significant first (R71). -/
theorem response_word (v : U16) : ∃ hi lo : Byte, OpOutcome.response (.value (.word v)) = some [0x01, hi, lo] ∧
    v.toNat = hi.toNat * 256 + lo.toNat :=
  ⟨_, _, rfl, (be16_value v.isLt).symm⟩

/-- Settles O55: the responses that hold no string are values of `OpOutcome.response`; the others are the status byte and
the payload of the lemmas above. -/
theorem responseEncoding : Obligations.ResponseEncoding := by
  unfold Obligations.ResponseEncoding
  refine ⟨rfl, fun _ => rfl, response_word, rfl, rfl,
    fun _ h => ⟨response_value (bytesPayload_of_fits h), response_decoded h⟩,
    fun _ h _ => response_value (bytesPayload_asciiBytes h), fun _ h _ => ?reading, rfl, rfl, rfl, rfl, rfl, rfl⟩
  case reading =>
    rw [List.append_assoc]
    exact response_value (Reading.payload_eq h)

end Sys2Proof.Machine
end

section
/-! PROOFS. The steps of the CRC as numbers (40_crc.md, R93 to R96). -/

namespace Sys2Proof.Machine

open Sys2Proof

/-! ### The bit step (R93) -/

/-- A shift by one place doubles modulo 2^16. -/
theorem toNat_shiftLeft_one (v : U16) : (v <<< 1).toNat = v.toNat * 2 % 2 ^ 16 := by
  rw [BitVec.toNat_shiftLeft, Nat.shiftLeft_eq, Nat.pow_one]

/-- The mask of the bit step is nonzero exactly when bits 15 of the register and of the working value differ (R93). -/
theorem xor_and_8000_ne_zero_iff (crc c : U16) :
    (crc ^^^ c) &&& 0x8000 ≠ 0 ↔ crc.getLsbD 15 ≠ c.getLsbD 15 := by
  rw [and_8000_ne_zero_iff, BitVec.getLsbD_xor, Bool.xor_iff_ne]

/-- The working value after a bit step is doubled (R93). -/
theorem toNat_crcBitStep_snd (crc c : U16) : (crcBitStep (crc, c)).2.toNat = c.toNat * 2 % 2 ^ 16 :=
  toNat_shiftLeft_one c

/-- The register after a bit step is doubled, and takes the polynomial when bits 15 differ (R93). -/
theorem toNat_crcBitStep_fst (crc c : U16) : (crcBitStep (crc, c)).1.toNat =
    if crc.getLsbD 15 ≠ c.getLsbD 15 then (crc.toNat * 2 % 2 ^ 16) ^^^ 0x1021 else crc.toNat * 2 % 2 ^ 16 := by
  simp only [crcBitStep, xor_and_8000_ne_zero_iff, crcPoly]
  split
  · rw [BitVec.toNat_xor, toNat_shiftLeft_one]; rfl
  · exact toNat_shiftLeft_one crc

/-! ### The byte step (R94) -/

/-- The working value of a byte is its mirror in the high byte (R94). -/
theorem toNat_crcWorking (d : Byte) : (crcWorking d).toNat = 256 * (byteMirror d).toNat := by
  have := (byteMirror d).isLt
  rw [crcWorking, BitVec.toNat_shiftLeft, BitVec.toNat_setWidth, Nat.shiftLeft_eq]
  omega

/-- Eight bit steps shift the byte out of the working value (R94). -/
theorem crcBitSteps_crcWorking_snd (crc : U16) (d : Byte) : (crcBitSteps 8 (crc, crcWorking d)).2 = 0 :=
  (crcBitSteps_snd 8 _).trans (crcWorking_shift d)

/-! ### The final step (R95) -/

/-- A byte `hi` in the high byte and a byte `lo` in the low byte make a 16-bit value without a carry. -/
theorem toNat_highByte_add_lowByte (hi lo : Byte) :
    (((256 : Nat) : U16) * hi.setWidth 16 + lo.setWidth 16).toNat = 256 * hi.toNat + lo.toNat := by
  have := hi.isLt
  have := lo.isLt
  rw [BitVec.toNat_add, BitVec.toNat_mul, BitVec.toNat_setWidth, BitVec.toNat_setWidth,
    show ((256 : Nat) : U16).toNat = 256 from rfl]
  omega

/-- The high byte of a 16-bit value as a number. -/
theorem setWidth_ushiftRight_eq_ofNat (t : U16) : (t >>> 8).setWidth 8 = BitVec.ofNat 8 (t.toNat / 256) := by
  apply BitVec.eq_of_toNat_eq
  rw [BitVec.toNat_setWidth, BitVec.toNat_ushiftRight, Nat.shiftRight_eq_div_pow, BitVec.toNat_ofNat]

/-- The low byte of a 16-bit value as a number. -/
theorem setWidth_eq_ofNat (t : U16) : t.setWidth 8 = BitVec.ofNat 8 (t.toNat % 256) := by
  apply BitVec.eq_of_toNat_eq
  rw [BitVec.toNat_setWidth, BitVec.toNat_ofNat, Nat.mod_mod]

/-- The complement of the register, as a number (R95). -/
theorem toNat_ffff_sub (crc : U16) : (0xFFFF - crc).toNat = 0xFFFF - crc.toNat :=
  BitVec.toNat_sub_of_le (Nat.le_of_lt_succ crc.isLt)

/-- The final step mirrors the high and the low byte of the complement, each in its place (R95). -/
theorem toNat_crcFinal (crc : U16) : (crcFinal crc).toNat =
    256 * (byteMirror (BitVec.ofNat 8 ((0xFFFF - crc.toNat) / 256))).toNat +
      (byteMirror (BitVec.ofNat 8 ((0xFFFF - crc.toNat) % 256))).toNat := by
  rw [crcFinal, toNat_highByte_add_lowByte, setWidth_ushiftRight_eq_ofNat, setWidth_eq_ofNat, toNat_ffff_sub]

/-! ### The loop (R96) -/

/-- The register after the bytes of `data`, taken in index order from the initial register (R96). -/
def crcRegister (data : Bytes) : U16 := data.foldl crcByteStep crcInit

/-- One more byte is one more byte step, after the others (R96). -/
theorem crcRegister_concat (data : Bytes) (d : Byte) :
    crcRegister (data ++ [d]) = crcByteStep (crcRegister data) d :=
  List.foldl_concat _ _ _ _

/-- The CRC is the final step on the register of the loop (R96). -/
theorem calcCrc16_eq_crcFinal (data : Bytes) : calcCrc16 data = crcFinal (crcRegister data) := rfl

/-- Settles O14: the bit step and the final step are computed as numbers; eight shifts empty the working value; the
register of the loop is `crcRegister`. -/
theorem crcStepsAsStated : Obligations.CrcStepsAsStated := by
  unfold Obligations.CrcStepsAsStated
  exact ⟨fun crc c => ⟨toNat_crcBitStep_snd crc c, toNat_crcBitStep_fst crc c⟩,
    fun crc d => ⟨toNat_crcWorking d, rfl, crcBitSteps_crcWorking_snd crc d⟩,
    toNat_crcFinal,
    crcRegister, rfl, crcRegister_concat, calcCrc16_eq_crcFinal⟩

end Sys2Proof.Machine
end

section
/-! PROOFS. The operations `MIRROR` and `VERIFY` (40_crc.md, R90, R91, R98, R99). -/

namespace Sys2Proof.Machine

open Sys2Proof

/-- `VERIFY` records what `verify` answers and writes nothing else (R99). -/
theorem exec_verify (input : Bytes) (skip tl cut : Nat) (s : State) :
    exec (.verify input skip tl cut) s = .next (s.finish .bool (verify input skip tl cut)) := rfl

/-- Settles O15: each clause is one answer of `verify`, recorded by `exec_verify`. -/
theorem verifyComparesTheTrailer : Obligations.VerifyComparesTheTrailer := by
  unfold Obligations.VerifyComparesTheTrailer
  refine ⟨fun input skip tl cut s htl => ?refused, fun input skip cut s hshort => ?failed,
    fun skipped data cutOff g0 g1 s => ?compared⟩
  case refused => rw [exec_verify, verify_of_tl_ne htl]; rfl
  case failed => rw [exec_verify, verify_of_short hshort]; rfl
  case compared => rw [exec_verify, verify_parts]; rfl

/-- `MIRROR b` records the mirrored byte and writes nothing else (R91). -/
theorem exec_mirror (b : Byte) (s : State) : exec (.mirror b) s = .next (s.answer (.value (.byte (byteMirror b)))) := rfl

/-- Settles O12: the byte is `byteMirror b`, whose bits `byteMirror_bit` names; the second `MIRROR` undoes the first by
`byteMirror_byteMirror`. -/
theorem mirrorReversesTheBits : Obligations.MirrorReversesTheBits := by
  unfold Obligations.MirrorReversesTheBits
  intro b s
  refine ⟨byteMirror b, exec_mirror b s, ?_, byteMirror_bit b⟩
  rw [exec_mirror, byteMirror_byteMirror, State.answer_eq]

end Sys2Proof.Machine
end

section
/-! PROOFS. The key schedule (41_aes_cipher.md, R115, R116). -/

namespace Sys2Proof.Machine

open Sys2Proof

/-! ### The recurrence along the loop -/

/-- The recurrence of R116: every word of `w` from index `nk` on is the word `nk` back, XORed with the word `t` that
`scheduleTemp` makes of the previous one. -/
def FollowsSchedule (nk : Nat) (w : List Word4) : Prop :=
  ∀ i, nk ≤ i → i < w.length → ∃ back prev : Word4,
    w[i - nk]? = some back ∧ w[i - 1]? = some prev ∧ w[i]? = some (back.xor (scheduleTemp nk i prev))

/-- The key's own words are under no recurrence. -/
theorem followsSchedule_of_length_le {nk : Nat} {w : List Word4} (h : w.length ≤ nk) : FollowsSchedule nk w :=
  fun _ hi hlt => absurd (hlt.trans_le h) (Nat.not_lt.mpr hi)

/-- One more word that the recurrence gives keeps it. -/
theorem FollowsSchedule.concat {nk : Nat} {w : List Word4} {back prev : Word4} (hw : FollowsSchedule nk w)
    (hnk : 0 < nk) (hback : w[w.length - nk]? = some back) (hprev : w[w.length - 1]? = some prev) :
    FollowsSchedule nk (w ++ [back.xor (scheduleTemp nk w.length prev)]) := by
  intro i hi hlt
  have hlt' : i < w.length + 1 := by simpa using hlt
  rw [List.getElem?_append_left (show i - nk < w.length by omega),
    List.getElem?_append_left (show i - 1 < w.length by omega)]
  obtain hold | rfl := Nat.lt_succ_iff_lt_or_eq.mp hlt'
  · rw [List.getElem?_append_left hold]
    exact hw i hi hold
  · exact ⟨back, prev, hback, hprev, List.getElem?_concat_length⟩

/-- The word `k` back from the end of the index order stands at `k - 1` in the newest-first order. -/
theorem getElem?_reverse_length_sub {newest : List Word4} {k : Nat} (hk : 0 < k) (hle : k ≤ newest.length) (d : Word4) :
    newest.reverse[newest.length - k]? = some (newest.getD (k - 1) d) := by
  rw [List.getElem?_reverse (by omega), show newest.length - 1 - (newest.length - k) = k - 1 by omega,
    List.getD_eq_getElem _ _ (by omega), List.getElem?_eq_getElem]

/-- The loop of R116 keeps the recurrence, in index order. -/
theorem followsSchedule_expandLoop {nk : Nat} (hnk : 0 < nk) (n : Nat) {newest : List Word4}
    (hle : nk ≤ newest.length) (h : FollowsSchedule nk newest.reverse) :
    FollowsSchedule nk (expandLoop nk n newest.length newest).reverse := by
  induction n generalizing newest with
  | zero => exact h
  | succ n ih =>
    have hback := getElem?_reverse_length_sub hnk hle ⟨0, 0, 0, 0⟩
    have hprev := getElem?_reverse_length_sub Nat.one_pos (hnk.trans_le hle) ⟨0, 0, 0, 0⟩
    rw [← List.headD_eq_getD] at hprev
    rw [← List.length_reverse] at hback hprev
    have hnext := h.concat hnk hback hprev
    rw [← List.reverse_cons, List.length_reverse] at hnext
    exact ih (hle.trans (Nat.le_succ _)) hnext

/-! ### The schedule -/

/-- The key's own words, which the schedule begins with (R116). -/
def firstWords (key : Bytes) : List Word4 := (List.range (keyWords key)).map (Word4.ofBytes key)

theorem length_firstWords (key : Bytes) : (firstWords key).length = keyWords key := by simp [firstWords]

theorem keyExpansion_eq (key : Bytes) : keyExpansion key =
    (expandLoop (keyWords key) (4 * (rounds key + 1) - keyWords key) (keyWords key) (firstWords key).reverse).reverse := rfl

/-- The schedule has four words for each of the `Nr + 1` round keys (R116). -/
theorem length_keyExpansion (key : Bytes) : (keyExpansion key).length = 4 * (rounds key + 1) := by
  rw [keyExpansion_eq, List.length_reverse, length_expandLoop, List.length_reverse, length_firstWords, rounds]
  omega

/-- The first `Nk` words of the schedule are the key (R116). -/
theorem keyExpansion_getElem?_of_lt {key : Bytes} {i : Nat} (h : i < keyWords key) :
    (keyExpansion key)[i]? = some (Word4.ofBytes key i) := by
  obtain ⟨made, hmade, -⟩ := expandLoop_suffix (keyWords key) (4 * (rounds key + 1) - keyWords key) (keyWords key)
    (firstWords key).reverse
  rw [keyExpansion_eq, hmade, List.reverse_append, List.reverse_reverse,
    List.getElem?_append_left (by rwa [length_firstWords]), firstWords, List.getElem?_map, List.getElem?_range h,
    Option.map_some]

/-- The schedule follows the recurrence of R116. -/
theorem followsSchedule_keyExpansion {key : Bytes} (h : 0 < keyWords key) :
    FollowsSchedule (keyWords key) (keyExpansion key) := by
  have hlen : (firstWords key).reverse.length = keyWords key := by rw [List.length_reverse, length_firstWords]
  have hfirst : FollowsSchedule (keyWords key) (firstWords key).reverse.reverse :=
    followsSchedule_of_length_le (by rw [List.length_reverse, hlen])
  have hloop := followsSchedule_expandLoop h (4 * (rounds key + 1) - keyWords key) hlen.ge hfirst
  rwa [hlen, ← keyExpansion_eq] at hloop

/-- The three key lengths have the numbers `Nk` and `Nr` of R115. -/
theorem keyWords_rounds_of_mem {key : Bytes} {nk nr : Nat}
    (h : (key.length, nk, nr) ∈ [(16, 4, 10), (24, 6, 12), (32, 8, 14)]) :
    keyWords key = nk ∧ rounds key = nr ∧ 0 < nk := by
  have hcases : key.length = 16 ∧ nk = 4 ∧ nr = 10 ∨ key.length = 24 ∧ nk = 6 ∧ nr = 12 ∨
      key.length = 32 ∧ nk = 8 ∧ nr = 14 := by simpa using h
  unfold rounds keyWords
  omega

/-- Settles O23: the length and the first words are those of the two lemmas above, and the recurrence is that of
`followsSchedule_keyExpansion`, with `scheduleTemp` written out. -/
theorem keyExpansionRecurrence : Obligations.KeyExpansionRecurrence := by
  unfold Obligations.KeyExpansionRecurrence
  intro key nk nr h
  obtain ⟨rfl, rfl, hpos⟩ := keyWords_rounds_of_mem h
  have hlen := length_keyExpansion key
  exact ⟨hlen, fun i hi => keyExpansion_getElem?_of_lt hi,
    fun i hi hlt => followsSchedule_keyExpansion hpos i hi (hlen ▸ hlt)⟩

end Sys2Proof.Machine
end

section
/-! PROOFS. The S-box (41_aes_cipher.md, R112, R113). -/

namespace Sys2Proof.Machine

open Sys2Proof

/-- A rotation to the right by `k` places moves bit `(i + k) mod w` to bit `i`. -/
theorem getLsbD_rotateRight_eq_mod {w k i : Nat} (x : BitVec w) (hk : k < w) (hi : i < w) :
    (x.rotateRight k).getLsbD i = x.getLsbD ((i + k) % w) := by
  rw [BitVec.getLsbD_rotateRight, Nat.mod_eq_of_lt hk, Bool.cond_decide]
  split
  · rw [Nat.mod_eq_of_lt (by omega), Nat.add_comm]
  · rw [Nat.mod_eq_sub_mod (by omega), Nat.mod_eq_of_lt (by omega), decide_eq_true hi, Bool.true_and]
    congr 1
    omega

/-- The bit formula of R112, bit by bit. -/
theorem getLsbD_sboxAffine (x : Byte) {i : Nat} (hi : i < 8) : (sboxAffine x).getLsbD i =
    ((x.getLsbD i).xor ((x.getLsbD ((i + 4) % 8)).xor ((x.getLsbD ((i + 5) % 8)).xor
      ((x.getLsbD ((i + 6) % 8)).xor ((x.getLsbD ((i + 7) % 8)).xor ((0x63 : Byte).getLsbD i)))))) := by
  simp only [sboxAffine, BitVec.getLsbD_xor, getLsbD_rotateRight_eq_mod x _ hi, Nat.reduceLT, Bool.xor_assoc]

/-- The bit formula solved for the inverse: bit `i` is `y_(i+2) xor y_(i+5) xor y_(i+7)` and the bit of `0x05`, indices
modulo 8. -/
def sboxAffineInv (y : Byte) : Byte := y.rotateRight 2 ^^^ y.rotateRight 5 ^^^ y.rotateRight 7 ^^^ 0x05

theorem sboxAffine_sboxAffineInv : ∀ y : Byte, sboxAffine (sboxAffineInv y) = y := by decide +kernel

/-- The inverse of `a` in the field, read off the table entry of `a`. -/
def tableInv (a : Byte) : Byte := sboxAffineInv (sbox a)

theorem tableInv_zero : tableInv 0 = 0 := by decide

/-- What the table yields for a byte other than 0 is its inverse (R112), checked at all 255 bytes. -/
theorem gmul_tableInv : ∀ a : Byte, a ≠ 0 → gmul a (tableInv a) = 1 := by decide +kernel

/-- Settles O22 with the inverse `tableInv`: the table entry is the bit formula on it. -/
theorem sboxIsTheBitFormulaOnTheInverse : Obligations.SboxIsTheBitFormulaOnTheInverse := by
  unfold Obligations.SboxIsTheBitFormulaOnTheInverse
  refine ⟨tableInv, tableInv_zero, gmul_tableInv, fun a i hi => ?_⟩
  rw [← getLsbD_sboxAffine _ hi, tableInv, sboxAffine_sboxAffineInv]

end Sys2Proof.Machine
end

section
/-! PROOFS. The state array and the four transformations, entry by entry (41_aes_cipher.md, R117 to R121). -/

namespace Sys2Proof.Machine

open Sys2Proof

/-! ### The bytes of a word -/

/-- Byte `r` of a word of a byte string (R114, R117). -/
theorem Word4.getD_bytes_ofBytes (bs : Bytes) (i : Nat) {r : Nat} (hr : r < 4) :
    (Word4.ofBytes bs i).bytes.getD r 0 = bs.getD (4 * i + r) 0 := by
  interval_cases r <;> rfl

/-- XOR of words is bytewise. -/
theorem Word4.getD_bytes_xor (u v : Word4) {r : Nat} (hr : r < 4) :
    (u.xor v).bytes.getD r 0 = u.bytes.getD r 0 ^^^ v.bytes.getD r 0 := by
  interval_cases r <;> rfl

/-- The substitution is bytewise. -/
theorem Word4.getD_bytes_sub (u : Word4) {r : Nat} (hr : r < 4) : u.sub.bytes.getD r 0 = sbox (u.bytes.getD r 0) := by
  interval_cases r <;> rfl

/-- Row `r` of a mixed column: the multipliers 2, 3, 1, 1 on the rows from `r` on, wrapping at 4 (R121). -/
theorem Word4.getD_bytes_mix (u : Word4) {r : Nat} (hr : r < 4) : u.mix.bytes.getD r 0 =
    gmul (u.bytes.getD r 0) 2 ^^^ gmul (u.bytes.getD ((r + 1) % 4) 0) 3 ^^^ u.bytes.getD ((r + 2) % 4) 0 ^^^
      u.bytes.getD ((r + 3) % 4) 0 := by
  interval_cases r <;> simp only [mix, bytes, List.getD_cons_zero, List.getD_cons_succ, Nat.reduceAdd, Nat.reduceMod] <;> ac_rfl

/-! ### Entries by columns -/

/-- Column `c` of the state array; every `c` above 2 stands for the last column. -/
def AesState.column (s : AesState) : Nat → Word4
  | 0 => s.c0
  | 1 => s.c1
  | 2 => s.c2
  | _ => s.c3

/-- The entry in row `r` and column `c` is byte `r` of the column (R117). -/
theorem AesState.entry_eq_column (s : AesState) {r c : Nat} (hr : r < 4) (hc : c < 4) :
    s.entry r c = (s.column c).bytes.getD r 0 := by
  interval_cases c <;> interval_cases r <;> rfl

theorem AesState.column_load (block : Bytes) {c : Nat} (hc : c < 4) :
    (AesState.load block).column c = Word4.ofBytes block c := by
  interval_cases c <;> rfl

theorem AesState.column_addRoundKey (s : AesState) (w : List Word4) (round : Nat) {c : Nat} (hc : c < 4) :
    (s.addRoundKey w round).column c = (s.column c).xor (w.getD (4 * round + c) ⟨0, 0, 0, 0⟩) := by
  interval_cases c <;> rfl

theorem AesState.column_subBytes (s : AesState) {c : Nat} (hc : c < 4) : s.subBytes.column c = (s.column c).sub := by
  interval_cases c <;> rfl

theorem AesState.column_mixColumns (s : AesState) {c : Nat} (hc : c < 4) :
    s.mixColumns.column c = (s.column c).mix := by
  interval_cases c <;> rfl

/-! ### Layout and row rotation (R117, R120) -/

/-- Loading puts byte `r + 4 * c` in row `r` and column `c` (R117). -/
theorem AesState.entry_load (block : Bytes) {r c : Nat} (hr : r < 4) (hc : c < 4) :
    (AesState.load block).entry r c = block.getD (r + 4 * c) 0 := by
  rw [entry_eq_column _ hr hc, column_load _ hc, Word4.getD_bytes_ofBytes _ _ hr, Nat.add_comm]

/-- Storing reads the entries column by column (R117). -/
theorem AesState.getD_store (s : AesState) (i : Nat) : s.store.getD i 0 = s.entry (i % 4) (i / 4) := by
  rw [entry, Nat.mod_add_div]

/-- Storing a loaded block gives it back (R117). -/
theorem AesState.store_load {block : Bytes} (h : block.length = 16) : (AesState.load block).store = block := by
  refine List.ext_getElem (by rw [length_store, h]) fun i hi hi' => ?_
  have hrow : i % 4 < 4 := Nat.mod_lt i (by decide)
  have hcol : i / 4 < 4 := by omega
  rw [← List.getD_eq_getElem _ 0 hi, getD_store, entry_load _ hrow hcol, Nat.mod_add_div, List.getD_eq_getElem]

/-- `ShiftRows` rotates row `r` by `r` columns (R120). -/
theorem AesState.entry_shiftRows (s : AesState) {r c : Nat} (hr : r < 4) (hc : c < 4) :
    s.shiftRows.entry r c = s.entry r ((c + r) % 4) := by
  interval_cases r <;> interval_cases c <;> rfl

/-- Settles O24: an entry of a loaded block is a byte of its column, and the stored bytes are the entries in order. -/
theorem stateLayoutAndShiftRows : Obligations.StateLayoutAndShiftRows := by
  unfold Obligations.StateLayoutAndShiftRows
  exact ⟨fun block _ _ hlen hr hc => ⟨AesState.entry_load block hr hc, AesState.store_load hlen⟩,
    fun s _ _ hr hc => s.entry_shiftRows hr hc⟩

/-! ### The other three transformations (R118, R119, R121) -/

/-- `AddRoundKey` adds byte `r` of word `4 * round + c` to the entry (R118). -/
theorem AesState.entry_addRoundKey (s : AesState) {w : List Word4} {round : Nat} {key : Word4} {r c : Nat} (hr : r < 4)
    (hc : c < 4) (hkey : w[4 * round + c]? = some key) :
    (s.addRoundKey w round).entry r c = s.entry r c ^^^ key.bytes.getD r 0 := by
  have hword : w.getD (4 * round + c) ⟨0, 0, 0, 0⟩ = key := by rw [List.getD_eq_getElem?_getD, hkey, Option.getD_some]
  rw [entry_eq_column _ hr hc, entry_eq_column _ hr hc, column_addRoundKey _ _ _ hc, hword, Word4.getD_bytes_xor _ _ hr]

/-- `SubBytes` replaces each entry through the table (R119). -/
theorem AesState.entry_subBytes (s : AesState) {r c : Nat} (hr : r < 4) (hc : c < 4) :
    s.subBytes.entry r c = sbox (s.entry r c) := by
  rw [entry_eq_column _ hr hc, entry_eq_column _ hr hc, column_subBytes _ hc, Word4.getD_bytes_sub _ hr]

/-- `MixColumns` combines the entries of a column, from the entry's row on (R121). -/
theorem AesState.entry_mixColumns (s : AesState) {r c : Nat} (hr : r < 4) (hc : c < 4) : s.mixColumns.entry r c =
    gmul (s.entry r c) 2 ^^^ gmul (s.entry ((r + 1) % 4) c) 3 ^^^ s.entry ((r + 2) % 4) c ^^^
      s.entry ((r + 3) % 4) c := by
  have hrow (k : Nat) : k % 4 < 4 := Nat.mod_lt k (by decide)
  rw [entry_eq_column _ hr hc, entry_eq_column _ hr hc, entry_eq_column _ (hrow _) hc, entry_eq_column _ (hrow _) hc,
    entry_eq_column _ (hrow _) hc, column_mixColumns _ hc, Word4.getD_bytes_mix _ hr]

/-- Settles O25: each transformation acts column by column, and on a column row by row. -/
theorem roundTransformationsEntrywise : Obligations.RoundTransformationsEntrywise := by
  unfold Obligations.RoundTransformationsEntrywise
  exact fun s _ _ hr hc => ⟨fun _ _ _ hkey => s.entry_addRoundKey hr hc hkey, s.entry_subBytes hr hc,
    s.entry_mixColumns hr hc⟩

end Sys2Proof.Machine
end

section
/-! PROOFS. Counter mode: the counter block and the limit of the counter (42_aes_ctr.md, R141, R143). -/

namespace Sys2Proof.Machine

open Sys2Proof

/-- The limit of the counter is the only thing that refuses `ctr_xor` (R143). -/
theorem ctrXor_refused_iff {key nonce : Bytes} {ctr0 : Nat} {data : Bytes} :
    ctrXor key nonce ctr0 data = .refuse .counterWrap ↔ ¬CounterFits ctr0 0 data.length := by
  refine ⟨fun hrefused hfits => ?_, ctrXor_refused⟩
  rw [ctrXor_eq hfits] at hrefused
  cases hrefused

/-- Settles O28: the counter of the last block decides, by `counterFits_iff`. -/
theorem counterNeverWraps : Obligations.CounterNeverWraps := by
  unfold Obligations.CounterNeverWraps
  intro key nonce data ctr0 hdata
  rw [ctrXor_refused_iff, counterFits_iff (List.length_pos_iff.mpr hdata), not_le]

/-- The four bytes of `be32` give the number back (R191). -/
theorem ube_be32 {n : Nat} (h : n ≤ 0xFFFFFFFF) : ube (be32 n) = n := by
  simp only [ube, be32, List.foldl_cons, List.foldl_nil, BitVec.toNat_ofNat]
  omega

theorem counterBlock_of_le {ctr0 i : Nat} (h : ctr0 + i ≤ 0xFFFFFFFF) (nonce : Bytes) :
    counterBlock nonce ctr0 i = some (nonce ++ be32 (ctr0 + i)) := if_neg (not_lt.mpr h)

theorem counterBlock_of_gt {ctr0 i : Nat} (h : 0xFFFFFFFF < ctr0 + i) (nonce : Bytes) :
    counterBlock nonce ctr0 i = none := if_pos h

/-- Settles O26: the block is the nonce and `be32` of the counter, which `ube_be32` reads back; one data byte already needs
the counter `ctr0`. -/
theorem counterBlockLayout : Obligations.CounterBlockLayout := by
  unfold Obligations.CounterBlockLayout
  refine ⟨fun nonce ctr0 i hnonce => ⟨fun hle => ?layout, fun hgt => counterBlock_of_gt hgt nonce⟩,
    fun key nonce ctr0 hgt => ?refused, fun c frame key hkey hlen => decryptFrame_eq hkey hlen⟩
  case layout =>
    refine ⟨_, counterBlock_of_le hle nonce, ?_, List.take_left' hnonce, ?_⟩
    · rw [List.length_append, hnonce]; rfl
    · rw [List.drop_left' hnonce, ube_be32 hle]
  case refused =>
    refine ctrXor_refused fun hfits => ?_
    exact absurd (hfits 0 Nat.one_pos) (not_le.mpr hgt)

end Sys2Proof.Machine
end

section
/-! PROOFS. The operation `DECRYPT`: its checks in order, and the plaintext (42_aes_ctr.md, R144 to R148, R216). -/

namespace Sys2Proof

/-- Byte `j` of a slice is byte `a + j` of the string (00_scope.md section 5). -/
theorem getElem?_slice {s : Bytes} {a b j : Nat} (h : a + j < b) : (slice s a b)[j]? = s[a + j]? := by
  rw [slice, List.getElem?_drop, List.getElem?_take_of_lt h]

end Sys2Proof

namespace Sys2Proof.Machine

open Sys2Proof

/-- Under an accepted configuration `DECRYPT` records the answer of its checks and writes nothing else (R9, R147). -/
theorem exec_decrypt_of_configOk {s : State} (h : s.configOk) (key frame : Bytes) :
    exec (.decrypt key frame) s = .next (s.finish .bytes (decryptVerified s.cfg key frame)) :=
  if_neg (not_not.mpr h)

section
variable {cfg : Cfg} {key frame : Bytes}

/-! ### The checks in the order of R216 -/

theorem decryptVerified_of_badKey (hkey : ¬keyLengthOk key) :
    decryptVerified cfg key frame = .refuse .badKeyLength := if_pos hkey

theorem decryptVerified_of_unverified (hkey : keyLengthOk key) (hframe : ¬(4 ≤ frame.length ∧ intact frame)) :
    decryptVerified cfg key frame = .refuse .unverified := by
  rw [decryptVerified, if_neg (not_not.mpr hkey), if_pos (mt verifyFrame_eq_true_iff.mp hframe)]

theorem decryptVerified_of_verified (hkey : keyLengthOk key) (hframe : 4 ≤ frame.length ∧ intact frame) :
    decryptVerified cfg key frame = decryptFrame cfg frame key := by
  rw [decryptVerified, if_neg (not_not.mpr hkey), if_neg (not_not.mpr (verifyFrame_eq_true_iff.mpr hframe))]

theorem decryptFrame_of_short (hkey : keyLengthOk key) (hlen : frame.length < cfg.ctOff + 3) :
    decryptFrame cfg frame key = .raise .malformedFrameError := by
  rw [decryptFrame, if_neg (not_not.mpr hkey), if_pos hlen]

/-! ### The counter and the plaintext -/

/-- The counter, from 2, lasts for `2 ^ 32 - 2` blocks of ciphertext (R143). -/
theorem counterFits_frameCiphertext_iff (hlen : cfg.ctOff + 3 ≤ frame.length) :
    CounterFits ctrInit 0 (frameCiphertext cfg frame).length ↔ frame.length ≤ (2 ^ 32 - 2) * 16 + cfg.ctOff + 3 := by
  rw [length_frameCiphertext]
  rcases Nat.eq_zero_or_pos (frame.length - 3 - cfg.ctOff) with hempty | hpos
  · rw [hempty]
    exact ⟨fun _ => by omega, fun _ _ hk => absurd hk (Nat.not_lt_zero _)⟩
  · rw [counterFits_iff hpos, ctrInit]
    omega

theorem decryptFrame_of_tooLong (hkey : keyLengthOk key)
    (hlen : (2 ^ 32 - 2) * 16 + cfg.ctOff + 3 < frame.length) :
    decryptFrame cfg frame key = .refuse .counterWrap := by
  have hmin : cfg.ctOff + 3 ≤ frame.length := by omega
  rw [decryptFrame_eq hkey hmin, ctrXor_refused_iff, counterFits_frameCiphertext_iff hmin]
  exact not_le.mpr hlen

/-- The plaintext of a frame: its ciphertext XORed with the keystream of its nonce (R142, R144, R145). -/
def framePlaintext (cfg : Cfg) (key frame : Bytes) : Bytes :=
  (frameCiphertext cfg frame).mapIdx fun j d => d ^^^ keystreamByte key (frameNonce cfg frame) ctrInit j

theorem decryptFrame_of_fits (hkey : keyLengthOk key) (hmin : cfg.ctOff + 3 ≤ frame.length)
    (hmax : frame.length ≤ (2 ^ 32 - 2) * 16 + cfg.ctOff + 3) :
    decryptFrame cfg frame key = .result (framePlaintext cfg key frame) := by
  rw [decryptFrame_eq hkey hmin, ctrXor_eq ((counterFits_frameCiphertext_iff hmin).mpr hmax), framePlaintext]

theorem length_framePlaintext : (framePlaintext cfg key frame).length = frame.length - 3 - cfg.ctOff := by
  rw [framePlaintext, List.length_mapIdx, length_frameCiphertext]

/-- Byte `j` of the plaintext is the frame byte `CT_OFF + j` XORed with keystream byte `j` (R142, R145). -/
theorem getElem?_framePlaintext {j : Nat} (hj : j < (framePlaintext cfg key frame).length) :
    (framePlaintext cfg key frame)[j]? =
      some (frame.getD (cfg.ctOff + j) 0 ^^^ keystreamByte key (frameNonce cfg frame) ctrInit j) := by
  rw [length_framePlaintext] at hj
  have hcipher : (frameCiphertext cfg frame)[j]? = some (frame.getD (cfg.ctOff + j) 0) := by
    rw [frameCiphertext, getElem?_slice (by omega), List.getD_eq_getElem _ _ (by omega), List.getElem?_eq_getElem]
  rw [framePlaintext, List.getElem?_mapIdx, hcipher, Option.map_some]

end

/-- Settles O30: `exec_decrypt_of_configOk` records the answer of the checks, and each clause is one such answer; by R8
`CT_OFF` is at least 14, so a frame of `CT_OFF + 3` bytes is long enough to be verified. -/
theorem decryptChecksThenDecrypts : Obligations.DecryptChecksThenDecrypts := by
  unfold Obligations.DecryptChecksThenDecrypts
  intro key frame s hvalid hkept
  have hkeyIff : key.length ∈ [16, 24, 32] ↔ keyLengthOk key := by simp
  have hctOff : 14 ≤ s.cfg.ctOff := by obtain ⟨hst, hic, hct, -⟩ := hvalid; omega
  simp only [exec_decrypt_of_configOk ⟨hvalid, hkept⟩, hkeyIff]
  refine ⟨fun hkey => ?badKey, fun hkey hframe => ?unverified, fun hkey hlen hintact hshort => ?short,
    fun hkey hintact hlong => ?tooLong, fun hkey hintact hmin hmax => ?plaintext⟩
  case badKey => rw [decryptVerified_of_badKey hkey]; rfl
  case unverified => rw [decryptVerified_of_unverified hkey hframe]; rfl
  case short => rw [decryptVerified_of_verified hkey ⟨hlen, hintact⟩, decryptFrame_of_short hkey hshort]; rfl
  case tooLong =>
    rw [decryptVerified_of_verified hkey ⟨by omega, hintact⟩, decryptFrame_of_tooLong hkey hlong]; rfl
  case plaintext =>
    rw [decryptVerified_of_verified hkey ⟨by omega, hintact⟩, decryptFrame_of_fits hkey hmin hmax]
    exact ⟨_, rfl, length_framePlaintext, fun _ => getElem?_framePlaintext⟩

end Sys2Proof.Machine
end

section
/-! PROOFS. The dispatch of a complete telegram (43_framer.md, R166, R167, R171). -/

namespace Sys2Proof.Machine

open Sys2Proof

/-! ### The event of a telegram (R166) -/

/-- The event a telegram of `FRAME_LEN` bytes causes: its plaintext, when the FCS is its own (R63, R166). -/
def dispatchEvent (cfg : Cfg) (f : Bytes) : Event :=
  if intact f then .decoded (framePlaintext cfg cfg.key f) else .fail .checksumError

/-- R8 leaves the dispatch of a telegram of `FRAME_LEN` bytes no refusal and no failure but that of the FCS (R166). -/
theorem dispatch_eq_dispatchEvent {cfg : Cfg} {f : Bytes} (hvalid : cfgValid cfg) (hlen : f.length = cfg.frameLen) :
    dispatch cfg f = .ok (dispatchEvent cfg f) := by
  obtain ⟨hst, hic, hct, hmin, hmax, hkey⟩ := hvalid
  have hshort : 4 ≤ f.length := by omega
  by_cases hintact : intact f
  · rw [dispatchEvent, if_pos hintact]
    exact dispatch_of_decrypted (verifyFrame_eq_true_iff.mpr ⟨hshort, hintact⟩)
      (decryptFrame_of_fits hkey (by omega) (by omega))
  · rw [dispatchEvent, if_neg hintact]
    refine dispatch_of_not_verified ?_
    rw [verifyFrame_of_le hshort, decide_eq_false hintact]

/-! ### The last byte (R171) -/

theorem frameNonce_concat {cfg : Cfg} {f : Bytes} (hst : cfg.stOff + 8 ≤ f.length) (hic : cfg.icOff + 4 ≤ f.length)
    (x : Byte) : frameNonce cfg (f ++ [x]) = frameNonce cfg f := by
  rw [frameNonce, slice_append_left hst, slice_append_left hic, frameNonce]

/-- The ciphertext ends three bytes before the end of the frame, so the last byte is not in it (R145). -/
theorem frameCiphertext_concat (cfg : Cfg) (f : Bytes) (x : Byte) :
    frameCiphertext cfg (f ++ [x]) = slice f cfg.ctOff (f.length - 2) := by
  rw [frameCiphertext, List.length_append, List.length_singleton, Nat.add_sub_add_right _ 1 2,
    slice_append_left (Nat.sub_le _ _)]

/-- The slices that the dispatch reads all end before the last byte (R63, R144, R145, R171). -/
theorem dispatchEvent_concat {cfg : Cfg} {f : Bytes} (hvalid : cfgValid cfg) (hlen : f.length + 1 = cfg.frameLen)
    (x y : Byte) : dispatchEvent cfg (f ++ [x]) = dispatchEvent cfg (f ++ [y]) := by
  obtain ⟨hst, hic, hct, hmin, -⟩ := hvalid
  have hintact : intact (f ++ [x]) ↔ intact (f ++ [y]) := by
    rw [intact_concat_iff (by omega), intact_concat_iff (by omega)]
  have hplain : framePlaintext cfg cfg.key (f ++ [x]) = framePlaintext cfg cfg.key (f ++ [y]) := by
    have hnonce := frameNonce_concat (cfg := cfg) (f := f) (by omega) (by omega)
    simp only [framePlaintext, frameCiphertext_concat, hnonce]
  simp only [dispatchEvent, hintact, hplain]

/-! ### The `RX` that completes a telegram (R165, R167) -/

/-- The last byte of a telegram is stored, the event recorded and the framer reset, all but `st.prev` (R163, R167). -/
theorem exec_rx_of_full {s : State} (hc : s.configOk) (hi : s.Inv) (hm : s.mode = .collecting)
    (hp : s.pos + 1 = s.cfg.frameLen) (b : Byte) : exec (.rx b) s =
      .next (((s.store b).selfReset.hold.remember b).answer (.event (dispatchEvent s.cfg (s.buf.bytes ++ [b])))) := by
  have hlen : (s.buf.bytes ++ [b]).length = s.cfg.frameLen := by
    rw [List.length_append, hi.length_bytes hm, List.length_singleton, hp]
  rw [exec_rx, rx_of_dispatch hc hm hp (dispatch_eq_dispatchEvent hc.1 hlen)]

/-- Settles O39: `exec_rx_of_full` names the next state; the self-reset in it writes mode, buffer and position, and
`st.prev` is written after it. -/
theorem selfResetAfterEveryDispatch : Obligations.SelfResetAfterEveryDispatch := by
  unfold Obligations.SelfResetAfterEveryDispatch
  intro b s hvalid hkept hinv hmode hpos
  refine ⟨_, dispatchEvent s.cfg (s.buf.bytes ++ [b]), exec_rx_of_full ⟨hvalid, hkept⟩ hinv hmode hpos b, ?_⟩
  simp

/-- Settles O40: by `exec_rx_of_full` the last byte enters the next state through the event and `st.prev` only, and the event
is the same for both bytes by `dispatchEvent_concat`. -/
theorem endFlagIsNotExamined : Obligations.EndFlagIsNotExamined := by
  unfold Obligations.EndFlagIsNotExamined
  intro x y s hvalid hkept hinv hmode hpos
  have hevent := dispatchEvent_concat hvalid (by rw [hinv.length_bytes hmode, hpos]) y x
  refine ⟨_, exec_rx_of_full ⟨hvalid, hkept⟩ hinv hmode hpos x, ?_⟩
  rw [exec_rx_of_full ⟨hvalid, hkept⟩ hinv hmode hpos y, hevent]
  rfl

end Sys2Proof.Machine
end

section
/-! PROOFS. Profiles and the fields of a Reading (45_host_profile_decode.md, R190 to R194, R199). -/

namespace Sys2Proof

/-- A slice has at most as many bytes as its range is wide, however short the string is (00_scope.md section 5). -/
theorem length_slice_le (s : Bytes) (a b : Nat) : (slice s a b).length ≤ b - a := by
  rw [slice, List.length_drop, List.length_take]
  omega

end Sys2Proof

namespace Sys2Proof.Machine

open Sys2Proof

/-! ### The answers of `PDECODE` (R193, R194) -/

/-- `PDECODE` records the answer of `pdecode` and writes nothing else (R194). -/
theorem exec_pdecode (profile : Profile) (off : Int) (p : Bytes) (s : State) :
    exec (.pdecode profile off p) s = .next (s.finish .reading (pdecode p profile off)) := rfl

/-- `pdecode` answers a Reading only under a profile that has a table and for a plaintext as long as the table needs, and it
is the Reading of that table (R193). -/
theorem pdecode_eq_result {p : Bytes} {profile : Profile} {off : Int} {r : Reading} (h : pdecode p profile off = .result r) :
    ∃ t, profileTable profile = some t ∧ t.need ≤ p.length ∧ r = readingOf t off p := by
  cases ht : profileTable profile with
  | none => rw [pdecode, ht] at h; cases h
  | some t =>
    rcases Nat.lt_or_ge p.length t.need with hshort | hlen
    · rw [pdecode_of_short ht hshort] at h; cases h
    · rw [pdecode_of_le ht hlen] at h; cases h
      exact ⟨t, rfl, hlen, rfl⟩

/-- Settles O48: each clause is one answer of `pdecode`, recorded by `exec_pdecode`; the fields of a Reading are the slices
at the ranges of its table by definition. -/
theorem pdecodeReadsTheProfileTable : Obligations.PdecodeReadsTheProfileTable := by
  unfold Obligations.PdecodeReadsTheProfileTable
  refine ⟨fun code off p s => ?unsupported, fun off p s hshort => ?shortWn, fun off p s hshort => ?shortKn,
    fun off p s hlen => ?readWn, fun off p s hlen => ?readKn⟩
  case unsupported => rw [exec_pdecode, pdecode_unsupported]; rfl
  case shortWn => rw [exec_pdecode, pdecode_of_short (t := tableWn) rfl hshort]; rfl
  case shortKn => rw [exec_pdecode, pdecode_of_short (t := tableKn) rfl hshort]; rfl
  case readWn => rw [exec_pdecode, pdecode_of_le (t := tableWn) rfl hlen]; rfl
  case readKn => rw [exec_pdecode, pdecode_of_le (t := tableKn) rfl hlen]; rfl

/-- Settles O49: the table of KN has no range for the reactive powers, the table of WN has both. -/
theorem knReactivePowerIsAbsent : Obligations.KnReactivePowerIsAbsent := by
  unfold Obligations.KnReactivePowerIsAbsent
  refine fun p off r => ⟨fun h => ?kn, fun h => ?wn⟩
  all_goals
    obtain ⟨t, ht, -, rfl⟩ := pdecode_eq_result h
    cases ht
    exact ⟨rfl, rfl⟩

/-! ### The counters of a Reading (R199) -/

/-- A field is below `256 ^ n` where its range is `n` bytes wide (R191). -/
theorem field_lt (p : Bytes) (r : ByteRange) : field p r < 256 ^ (r.last - r.first) :=
  (ube_lt _).trans_le (Nat.pow_le_pow_right (by decide) (length_slice_le p r.first r.last))

/-- The rows of the eight counters in a table, in the order of R199. -/
def ProfileTable.counters (t : ProfileTable) : List (Option ByteRange) :=
  [t.aInWh, t.aOutWh, t.rInVarh, t.rOutVarh, t.pInW, t.pOutW, t.qInVar, t.qOutVar]

/-- The eight counters of a Reading are the fields of those rows (R193). -/
theorem counters_readingOf (t : ProfileTable) (off : Int) (p : Bytes) :
    [(readingOf t off p).aInWh, (readingOf t off p).aOutWh, (readingOf t off p).rInVarh, (readingOf t off p).rOutVarh,
      (readingOf t off p).pInW, (readingOf t off p).pOutW, (readingOf t off p).qInVar, (readingOf t off p).qOutVar] =
      t.counters.map (optionalField p) := rfl

/-- Every counter of both tables is four bytes wide (R190). -/
theorem width_counters {profile : Profile} {t : ProfileTable} (ht : profileTable profile = some t) :
    ∀ r ∈ t.counters.reduceOption, r.last - r.first = 4 := by
  cases profile with
  | wn => cases ht; decide
  | kn => cases ht; decide
  | unsupported code => cases ht

/-- Settles O50: the value of a string is bounded by `ube_lt`; a counter that is present is the field of a range that is
four bytes wide. -/
theorem readingCountersAreU32 : Obligations.ReadingCountersAreU32 := by
  unfold Obligations.ReadingCountersAreU32
  refine ⟨ube_lt, fun p profile off r h c hc v hv => ?_⟩
  obtain ⟨t, ht, -, rfl⟩ := pdecode_eq_result h
  rw [counters_readingOf, List.mem_map] at hc
  obtain ⟨row, hrow, rfl⟩ := hc
  obtain ⟨range, rfl, rfl⟩ := Option.map_eq_some_iff.mp hv
  have hwidth := width_counters ht range (List.reduceOption_mem_iff.mpr hrow)
  calc field p range < 256 ^ (range.last - range.first) := field_lt p range
    _ = 2 ^ 32 := by rw [hwidth]; rfl

end Sys2Proof.Machine
end

section
/-! PROOFS. The decimal numerals and the timestamp (45_host_profile_decode.md, R195, R196, R198). -/

namespace Sys2Proof.Machine

open Sys2Proof

/-! ### The digits of a numeral (R196) -/

/-- With fuel above `n`, the digits put before a text are those of `dec n`, whatever the fuel. -/
theorem decimalDigits_eq_dec_append {fuel n : Nat} (h : n < fuel) (acc : Text) :
    decimalDigits fuel n acc = dec n ++ acc := by
  induction n using Nat.strongRecOn generalizing fuel acc with
  | ind n ih =>
    obtain ⟨fuel, rfl⟩ := Nat.exists_eq_add_one_of_ne_zero (Nat.ne_zero_of_lt h)
    rcases Nat.lt_or_ge n 10 with hn | hn
    · rw [dec, decimalDigits_of_lt hn, decimalDigits_of_lt hn, List.singleton_append]
    · have hdiv : n / 10 < n := by omega
      rw [dec, decimalDigits_of_le hn, decimalDigits_of_le hn, ih _ hdiv (by omega), ih _ hdiv hdiv, List.append_assoc,
        List.singleton_append]

/-- The numeral of a number below 10 is its digit. -/
theorem dec_of_lt {n : Nat} (h : n < 10) : dec n = [digitChar n] := decimalDigits_of_lt h n []

/-- The numeral of a longer number is that of its tenth, and its last digit. -/
theorem dec_of_le {n : Nat} (h : 10 ≤ n) : dec n = dec (n / 10) ++ [digitChar (n % 10)] := by
  rw [dec, decimalDigits_of_le h, decimalDigits_eq_dec_append (by omega)]

/-- Induction along the digits of a numeral, from its first digit on. -/
theorem digitInduction {P : Nat → Prop} (first : ∀ n < 10, P n) (next : ∀ n, 10 ≤ n → P (n / 10) → P n) (n : Nat) :
    P n := by
  induction n using Nat.strongRecOn with
  | ind n ih =>
    rcases Nat.lt_or_ge n 10 with h | h
    · exact first n h
    · exact next n h (ih _ (by omega))

theorem dec_ne_nil (n : Nat) : dec n ≠ [] := by
  rcases Nat.lt_or_ge n 10 with h | h
  · rw [dec_of_lt h]; exact List.cons_ne_nil _ _
  · rw [dec_of_le h]; exact List.append_ne_nil_of_right_ne_nil _ (List.cons_ne_nil _ _)

/-- A character of a numeral is a decimal digit. -/
theorem isDigit_of_mem_dec (n : Nat) : ∀ c ∈ dec n, '0' ≤ c ∧ c ≤ '9' := by
  have hdigit {d : Nat} (hd : d < 10) : ∀ c ∈ [digitChar d], '0' ≤ c ∧ c ≤ '9' := by
    obtain ⟨hlow, hhigh, -⟩ := digitChar_digit d hd
    exact List.forall_mem_singleton.mpr ⟨hlow, hhigh⟩
  induction n using digitInduction with
  | first n h => rw [dec_of_lt h]; exact hdigit h
  | next n h ih => rw [dec_of_le h]; exact List.forall_mem_append.mpr ⟨ih, hdigit (Nat.mod_lt n (by decide))⟩

/-- The number a text of decimal digits stands for. -/
def decimalValue (t : Text) : Nat := t.foldl (fun v c => v * 10 + (c.toNat - '0'.toNat)) 0

/-- One more digit shifts the number by a place. -/
theorem decimalValue_concat (t : Text) {d : Nat} (hd : d < 10) :
    decimalValue (t ++ [digitChar d]) = decimalValue t * 10 + d := by
  obtain ⟨-, -, hvalue, -⟩ := digitChar_digit d hd
  rw [decimalValue, List.foldl_concat, hvalue, decimalValue]

theorem decimalValue_dec (n : Nat) : decimalValue (dec n) = n := by
  induction n using digitInduction with
  | first n h => rw [dec_of_lt h, ← List.nil_append [_], decimalValue_concat [] h]; exact Nat.zero_add n
  | next n h ih => rw [dec_of_le h, decimalValue_concat _ (Nat.mod_lt n (by decide)), ih, Nat.div_add_mod']

/-- Only the numeral of 0 begins with the digit `0`. -/
theorem eq_zero_of_head?_dec {n : Nat} (h : (dec n).head? = some '0') : n = 0 := by
  induction n using digitInduction with
  | first n hn =>
    obtain ⟨-, -, -, hzero⟩ := digitChar_digit n hn
    rw [dec_of_lt hn] at h
    exact hzero (Option.some.inj h)
  | next n hn ih =>
    rw [dec_of_le hn, List.head?_append_of_ne_nil _ (dec_ne_nil _)] at h
    have := ih h
    omega

/-! ### The padded numeral (R196) -/

theorem dec2_of_lt {n : Nat} (h : n < 10) : dec2 n = '0' :: dec n := by
  rw [dec2, if_neg (by omega), if_pos (by omega), Int.natAbs_natCast]

theorem dec2_of_le {n : Nat} (h : 10 ≤ n) : dec2 n = dec n := by
  rw [dec2, if_neg (by omega), if_neg (by omega), Int.natAbs_natCast]

theorem dec2_neg {n : Nat} (h : 0 < n) : dec2 (-(n : Int)) = '-' :: dec n := by
  rw [dec2, if_pos (by omega), Int.natAbs_neg, Int.natAbs_natCast]

/-- Settles O52: the facts about `dec` are those of the lemmas above, each by induction along the digits; a numeral that
begins with `0` is that of 0, which is `dec_zero`. -/
theorem numeralsAreShortestDecimal : Obligations.NumeralsAreShortestDecimal := by
  unfold Obligations.NumeralsAreShortestDecimal
  refine ⟨fun n => ⟨dec_ne_nil n, isDigit_of_mem_dec n, decimalValue_dec n, fun h => ?leadingZero⟩, dec_zero,
    fun _ => ⟨dec2_of_lt, dec2_of_le⟩, fun _ => dec2_neg⟩
  case leadingZero =>
    obtain rfl := eq_zero_of_head?_dec h
    exact ⟨rfl, dec_zero⟩

/-! ### The timestamp (R195, R198) -/

/-- `TSNORM` records the text of `tsnorm` and writes nothing else (R198). -/
theorem exec_tsnorm (year month day hour minute second : Nat) (off : Int) (s : State) :
    exec (.tsnorm year month day hour minute second off) s =
      .next (s.answer (.value (.text (tsnorm year month day hour minute second off)))) := rfl

/-- Settles O51: `exec_tsnorm` names the outcome, with the format of `tsnorm` written out; the example is evaluated. -/
theorem tsnormFormatsTheTimestamp : Obligations.TsnormFormatsTheTimestamp := by
  unfold Obligations.TsnormFormatsTheTimestamp
  exact ⟨exec_tsnorm, by decide⟩

end Sys2Proof.Machine
end

section
/-! PROOFS. The command encoding: decoder and encoder undo each other, illegal commands, lengths (30_encoding.md, R66 to R70). -/

namespace Sys2Proof

/-! ### Operands of an operation (R68) -/

/-- Every operation agrees with the opcode map of R68. -/
theorem Laws.Operands.statement (i : Instr) : Laws.Operands.Statement i := by
  cases i with
  | reset => exact Laws.Operands.reset
  | rx b => exact Laws.Operands.rx b
  | mirror b => exact Laws.Operands.mirror b
  | crc16 data => exact Laws.Operands.crc16 data
  | verify input skip tl cut => exact Laws.Operands.verify input skip tl cut
  | decrypt key frame => exact Laws.Operands.decrypt key frame
  | pdecode profile off plaintext => exact Laws.Operands.pdecode profile off plaintext
  | tsnorm year month day hour minute second off => exact Laws.Operands.tsnorm year month day hour minute second off

theorem Instr.map_type_operands (i : Instr) : i.operands.map Operand.type = i.opcode.operandTypes :=
  (Laws.Operands.statement i).1

theorem Instr.wellFormed.operands_fit {i : Instr} (h : i.wellFormed) : ∀ o ∈ i.operands, o.fits :=
  ((Laws.Operands.statement i).2 h).1

theorem Instr.wellFormed.ofOperands_operands {i : Instr} (h : i.wellFormed) :
    Instr.ofOperands i.opcode i.operands = some i :=
  ((Laws.Operands.statement i).2 h).2

/-- An operation that stands for operands in range is well formed and has the opcode and the operands it was made from
(R68). -/
theorem Instr.ofOperands_eq_some {op : Opcode} {os : List Operand} {i : Instr} (h : Instr.ofOperands op os = some i)
    (hfit : ∀ o ∈ os, o.fits) : i.wellFormed ∧ i.opcode = op ∧ i.operands = os := by
  unfold Instr.ofOperands at h
  split at h <;> cases h
  case h_1 => exact ⟨trivial, rfl, rfl⟩
  case h_2 b =>
    have hb : fitsU8 b := hfit (.u8 b) (by simp)
    exact ⟨trivial, rfl, by rw [Instr.operands, toNat_ofNat8 hb]⟩
  case h_3 b =>
    have hb : fitsU8 b := hfit (.u8 b) (by simp)
    exact ⟨trivial, rfl, by rw [Instr.operands, toNat_ofNat8 hb]⟩
  case h_4 data => exact ⟨hfit (.bytes data) (by simp), rfl, rfl⟩
  case h_5 skip tl cut input => exact ⟨by simpa [Instr.wellFormed] using hfit, rfl, rfl⟩
  case h_6 key frame => exact ⟨by simpa [Instr.wellFormed] using hfit, rfl, rfl⟩
  case h_7 profile off plaintext =>
    obtain ⟨hprofile, hoff, hplaintext⟩ : fitsU8 profile ∧ fitsS8 off ∧ fitsBytes plaintext := by
      simpa [Operand.fits] using hfit
    exact ⟨⟨Profile.ofByte_wellFormed _, hoff, hplaintext⟩, rfl,
      by rw [Instr.operands, Profile.toByte_ofByte, toNat_ofNat8 hprofile]⟩
  case h_8 year month day hour minute second off => exact ⟨by simpa [Instr.wellFormed] using hfit, rfl, rfl⟩

/-! ### Decoder and encoder -/

/-- What the encoder writes for a well-formed operation the decoder reads back (R66 to R68). -/
theorem decode_encode {i : Instr} (h : i.wellFormed) : decode (encode i) = .ok i := by
  have hoperands : decodeOperands i.opcode.operandTypes (encodeOperands i.operands) = some (i.operands, []) := by
    have := decodeOperands_encode h.operands_fit []
    rwa [List.append_nil, i.map_type_operands] at this
  simp only [encode, decode, Opcode.ofByte_code, hoperands, h.ofOperands_operands]

/-- Settles O2: the opcode is read back, then the operands, which stand for the operation. -/
theorem decodeOfEncodeIsIdentity : Obligations.DecodeOfEncodeIsIdentity := by
  unfold Obligations.DecodeOfEncodeIsIdentity
  exact fun _ h => decode_encode h

/-- A legal command is an opcode and its operands, none missing and none left over, and they stand for the operation
(R66, R69). -/
theorem decode_eq_ok {bs : Bytes} {i : Instr} (h : decode bs = .ok i) : ∃ op os rest,
    bs = op.code :: rest ∧ decodeOperands op.operandTypes rest = some (os, []) ∧ Instr.ofOperands op os = some i := by
  unfold decode at h
  split at h
  case h_1 => cases h
  case h_2 b rest =>
    split at h
    case h_1 => cases h
    case h_2 op hop =>
      obtain rfl := Opcode.code_of_ofByte hop
      split at h
      case h_1 => cases h
      case h_2 => cases h
      case h_3 os hos =>
        split at h
        case h_1 => cases h
        case h_2 i' hi => cases h; exact ⟨op, os, rest, rfl, hos, hi⟩

/-- A legal command is the encoding of a well-formed operation (R66 to R69). -/
theorem wellFormed_and_encode_of_decode {bs : Bytes} {i : Instr} (h : decode bs = .ok i) :
    i.wellFormed ∧ encode i = bs := by
  obtain ⟨op, os, rest, rfl, hos, hi⟩ := decode_eq_ok h
  obtain ⟨-, hfit, hrest⟩ := encodeOperands_decode hos
  obtain ⟨hwf, rfl, rfl⟩ := Instr.ofOperands_eq_some hi hfit
  rw [List.append_nil] at hrest
  exact ⟨hwf, by rw [encode, hrest]⟩

/-- Settles O3: `encodeOperands_decode` says that the operands were read in range and are the bytes after the opcode, and
`Instr.ofOperands_eq_some` that the operation has that opcode and those operands. -/
theorem encodeOfDecodeIsIdentity : Obligations.EncodeOfDecodeIsIdentity := by
  unfold Obligations.EncodeOfDecodeIsIdentity
  exact fun _ _ h => wellFormed_and_encode_of_decode h

/-- Settles O1, by running the decoder on the nine commands. -/
theorem specCommandsDecode : Obligations.SpecCommandsDecode := by
  unfold Obligations.SpecCommandsDecode
  decide

/-! ### The length of a command (R70) -/

/-- The length computed from the front is that of the encoding, whatever follows it (R70). -/
theorem commandLength_encode_append {i : Instr} (h : i.wellFormed) (rest : Bytes) :
    commandLength (encode i ++ rest) = (encode i).length := by
  have hoperands := operandsLength_encode h.operands_fit rest
  rw [i.map_type_operands] at hoperands
  simp only [encode, List.cons_append, commandLength, Opcode.ofByte_code, hoperands, List.length_cons, Nat.add_comm]

/-- Settles O6: `commandLength_encode_append`, and the lengths of R67 added up over the operands of each operation. -/
theorem commandLengthFromFront : Obligations.CommandLengthFromFront := by
  unfold Obligations.CommandLengthFromFront
  refine ⟨fun _ rest h => commandLength_encode_append h rest, rfl, fun _ => ⟨rfl, rfl⟩, fun data => ?crc16,
    fun input skip tl cut => ?verify, fun key frame => ?decrypt, fun profile off plaintext => ?pdecode,
    fun _ _ _ _ _ _ _ => rfl⟩
  all_goals
    simp only [encode, Instr.operands, encodeOperands, Operand.encode, be16, List.flatMap_cons, List.flatMap_nil,
      List.length_cons, List.length_append, List.length_nil]
    omega

/-! ### Illegal commands (R69) -/

/-- The encoding of one operation does not go on into that of another: the length is determined from the front (R70). -/
theorem encode_append_eq_encode {i i' : Instr} {rest : Bytes} (h : i.wellFormed) (h' : i'.wellFormed)
    (heq : encode i ++ rest = encode i') : rest = [] := by
  have hlen : (encode i).length = (encode i').length := by
    rw [← commandLength_encode_append h rest, heq, ← commandLength_encode_append h' [], List.append_nil]
  rw [← heq, List.length_append] at hlen
  exact List.eq_nil_of_length_eq_zero (by omega)

/-- The four kinds of illegal command (R69): no bytes, a reserved opcode, an end before the operands are complete, bytes left
over. -/
def IllegalCommand (bs : Bytes) : Prop :=
  bs = [] ∨
  (∃ op tail, bs = op :: tail ∧ op ∉ [0x00, 0x01, 0x10, 0x11, 0x12, 0x20, 0x40, 0x41]) ∨
  (∃ i : Instr, i.wellFormed ∧ ∃ missing, missing ≠ [] ∧ bs ++ missing = encode i) ∨
  (∃ i : Instr, i.wellFormed ∧ ∃ extra, extra ≠ [] ∧ bs = encode i ++ extra)

theorem Opcode.code_mem (op : Opcode) : op.code ∈ [0x00, 0x01, 0x10, 0x11, 0x12, 0x20, 0x40, 0x41] := by
  cases op <;> decide

/-- None of them is the encoding of an operation, so none decodes (R69). -/
theorem IllegalCommand.decode_ne_ok {bs : Bytes} (h : IllegalCommand bs) (i : Instr) : decode bs ≠ .ok i := by
  intro hd
  obtain ⟨hwf, rfl⟩ := wellFormed_and_encode_of_decode hd
  rcases h with hempty | ⟨op, tail, hcons, hop⟩ | ⟨j, hj, missing, hne, heq⟩ | ⟨j, hj, extra, hne, heq⟩
  · exact List.cons_ne_nil _ _ hempty
  · obtain ⟨rfl, -⟩ := List.cons.inj hcons
    exact hop i.opcode.code_mem
  · exact hne (encode_append_eq_encode hwf hj heq)
  · exact hne (encode_append_eq_encode hj hwf heq.symm)

end Sys2Proof

namespace Sys2Proof.Machine

open Sys2Proof

/-! ### The step on an input (R6, R69, R172) -/

theorem State.taken_eq {s : State} {x : Input} {rest : List Input} (h : s.inputs = x :: rest) :
    s.taken = { s with inputs := rest } := by
  rw [State.taken, h, List.tail_cons]

theorem step_of_operation {s : State} {bs : Bytes} {rest : List Input} {i : Instr} (h : s.inputs = .command bs :: rest)
    (hd : decode bs = .ok i) : step s = exec i { s with inputs := rest } := by
  simp only [step, State.take, h, hd, State.taken_eq h]

theorem step_of_illegal {s : State} {bs : Bytes} {rest : List Input} (h : s.inputs = .command bs :: rest)
    (hd : ∀ i, decode bs ≠ .ok i) : step s = .next { s with inputs := rest, trace := s.trace ++ [.refusal .illegalCommand] } := by
  cases hdec : decode bs with
  | ok i => exact absurd hdec (hd i)
  | error why => simp only [step, State.take, h, hdec, State.taken_eq h]; rfl

theorem step_of_configuration {s : State} {c : Cfg} {rest : List Input} (h : s.inputs = .configure c :: rest) :
    step s = .next { s with inputs := rest, cfg := c } := by
  simp only [step, State.take, h, State.taken_eq h, State.supply]

theorem step_of_nothing {s : State} (h : s.inputs = []) : step s = .next s := by
  simp only [step, State.take, h]

/-- Settles O5: `IllegalCommand` is the disjunction of the statement, and a command that does not decode is refused. -/
theorem illegalCommandsAreTurnedAway : Obligations.IllegalCommandsAreTurnedAway := by
  unfold Obligations.IllegalCommandsAreTurnedAway
  exact fun s bs rest hinputs hillegal => step_of_illegal hinputs (IllegalCommand.decode_ne_ok hillegal)

/-- Settles O7: one lemma for each kind of input; the encoding of a well-formed operation decodes to it. -/
theorem stepRunsTheDecodedOperation : Obligations.StepRunsTheDecodedOperation := by
  unfold Obligations.StepRunsTheDecodedOperation
  exact fun s => ⟨fun _ _ _ => step_of_operation, fun _ _ hwf hinputs => step_of_operation hinputs (decode_encode hwf),
    fun _ _ => step_of_configuration, step_of_nothing⟩

end Sys2Proof.Machine
end

section
/-! PROOFS. The invariant of R25 along every step, and the frame of the operations (10_state.md, 00_scope.md). -/

namespace Sys2Proof.Machine

open Sys2Proof

/-! ### The invariant -/

/-- The state that `RESET` leaves has the framer idle, empty, at position 0 (R161). -/
theorem inv_resetFramer (s : State) (o : OpOutcome) : (s.resetFramer.hold.answer o).Inv := .of_idle rfl rfl rfl

/-- The record of outcomes is not part of the invariant. -/
theorem State.Inv.answer {s : State} (h : s.Inv) (o : OpOutcome) : (s.answer o).Inv := h.congr rfl

/-- What is pending is not part of the invariant. -/
theorem State.Inv.taken {s : State} (h : s.Inv) : s.taken.Inv := h.congr rfl

/-- Every operation keeps the invariant (R25). -/
theorem State.Inv.exec {s t : State} {i : Instr} (h : s.Inv) (ht : Machine.exec i s = .next t) : t.Inv := by
  rcases exec_cases i s with ⟨-, hx⟩ | ⟨b, -, hx⟩ | ⟨-, -, o, hx⟩ <;> rw [hx] at ht <;> cases ht
  · exact inv_resetFramer s .none
  · exact (h.rx b).answer _
  · exact h.answer o

/-- Settles O57: taking an input and supplying a configuration leave what the invariant speaks of as it is, a refusal records
an outcome, and an operation keeps it by `State.Inv.exec`. -/
theorem everyStepKeepsTheInvariant : Obligations.EveryStepKeepsTheInvariant := by
  unfold Obligations.EveryStepKeepsTheInvariant
  intro s t h ht
  rcases step_cases s with ⟨-, hx⟩ | ⟨c, -, -, hx⟩ | ⟨-, -, -, -, -, hx⟩ | ⟨-, -, i, -, -, hx⟩ <;> rw [hx] at ht
  · cases ht; exact h
  · cases ht; exact h.taken.supply c
  · cases ht; exact h.taken.answer _
  · exact h.taken.exec ht

/-- Settles O56: right after reset the framer is idle, empty, at position 0. -/
theorem resetMeetsTheInvariant : Obligations.ResetMeetsTheInvariant := by
  unfold Obligations.ResetMeetsTheInvariant
  exact .of_idle rfl rfl rfl

/-! ### Completion and frame of the operations -/

/-- Settles O33: `exec_reset` names the next state, with the updates of `RESET` written out. -/
theorem resetInAnyState : Obligations.ResetInAnyState := by
  unfold Obligations.ResetInAnyState
  exact exec_reset

/-- Settles O8: each case of `exec_cases` records one outcome; that an `RX` touches nothing else of the model's own is
`rx_frame`. -/
theorem everyOperationReturnsOneOutcome : Obligations.EveryOperationReturnsOneOutcome := by
  unfold Obligations.EveryOperationReturnsOneOutcome
  intro i s
  rcases exec_cases i s with ⟨-, hx⟩ | ⟨b, -, hx⟩ | ⟨-, -, o, hx⟩
  · exact ⟨_, .none, hx, rfl, rfl, rfl⟩
  · obtain ⟨htrace, hinputs, hcfg, -⟩ := rx_frame b s
    exact ⟨_, (rx b s).2, hx, by rw [State.answer_trace, htrace], hinputs, hcfg⟩
  · exact ⟨_, o, hx, rfl, rfl, rfl⟩

/-- Settles O58: an operation answers a next state, and so does every other kind of step. -/
theorem everyStateCanStep : Obligations.EveryStateCanStep := by
  unfold Obligations.EveryStateCanStep
  intro s
  rcases step_cases s with ⟨-, hx⟩ | ⟨c, -, -, hx⟩ | ⟨-, -, -, -, -, hx⟩ | ⟨-, -, i, -, -, hx⟩
  · exact ⟨_, hx⟩
  · exact ⟨_, hx⟩
  · exact ⟨_, hx⟩
  · obtain ⟨t, o, ht, -⟩ := everyOperationReturnsOneOutcome i s.taken
    exact ⟨t, hx.trans ht⟩

/-- A pure operation records its outcome and writes nothing else (R9, column "state written"). -/
theorem exec_pure {i : Instr} (hreset : i ≠ .reset) (hrx : ∀ b, i ≠ .rx b) (s : State) :
    ∃ o, exec i s = .next (s.answer o) := by
  rcases exec_cases i s with ⟨hi, -⟩ | ⟨b, hi, -⟩ | ⟨-, -, ho⟩
  · exact absurd hi hreset
  · exact absurd hi (hrx b)
  · exact ho

/-- With the record of outcomes put back, an answer is undone. -/
theorem State.answer_with_trace (s : State) (o : OpOutcome) : { s.answer o with trace := s.trace } = s := rfl

/-- Settles O9, by `exec_pure`. -/
theorem pureOperationsWriteNoState : Obligations.PureOperationsWriteNoState := by
  unfold Obligations.PureOperationsWriteNoState
  intro i s t hreset hrx ht
  obtain ⟨o, hx⟩ := exec_pure hreset hrx s
  rw [hx] at ht
  cases ht
  exact s.answer_with_trace o

/-! ### Pure operations among `RX` operations (R103) -/

/-- `RX` of the last byte of a telegram whose dispatch is refused: the whole `RX` is (log entry 17). -/
theorem rx_of_dispatch_refused {b : Byte} {s : State} {r : Reason} (h : s.configOk) (hm : s.mode = .collecting)
    (hp : s.pos + 1 = s.cfg.frameLen) (hd : dispatch s.cfg (s.buf.bytes ++ [b]) = .error r) :
    rx b s = (s, .refusal r) := by
  have hfull : (s.store b).full := hp
  rw [rx, if_neg (not_not.mpr h), hm]
  simp only [if_pos hfull, State.store_buf, Memory.bytes_append, hd]

/-- An `RX` does not read the record of outcomes, and carries it along (R103). -/
theorem rx_answer (b : Byte) (s : State) (o : OpOutcome) : rx b (s.answer o) = ((rx b s).1.answer o, (rx b s).2) := by
  by_cases hc : s.configOk
  case neg => rw [rx_of_not_configOk hc, rx_of_not_configOk (s := s.answer o) hc]
  cases hm : s.mode with
  | idle =>
    rw [rx_of_idle hc hm, rx_of_idle (s := s.answer o) hc hm]
    by_cases hs : s.start b
    · rw [if_pos hs, if_pos (show (s.answer o).start b from hs)]; rfl
    · rw [if_neg hs, if_neg (show ¬(s.answer o).start b from hs)]; rfl
  | collecting =>
    by_cases hp : s.pos + 1 = s.cfg.frameLen
    case neg => rw [rx_of_store hc hm hp, rx_of_store (s := s.answer o) hc hm hp]; rfl
    cases hd : dispatch s.cfg (s.buf.bytes ++ [b]) with
    | error r => rw [rx_of_dispatch_refused hc hm hp hd, rx_of_dispatch_refused (s := s.answer o) hc hm hp hd]
    | ok ev => rw [rx_of_dispatch hc hm hp hd, rx_of_dispatch (s := s.answer o) hc hm hp hd]; rfl

/-- Two operations in a row. -/
theorem execAll_pair {i j : Instr} {s t : State} (h : exec i s = .next t) : execAll [i, j] s = exec j t := by
  simp only [execAll, h]
  cases exec j t <;> rfl

/-- Settles O47: a pure operation adds its outcome to the record, which `rx_answer` says an `RX` does not read. -/
theorem pureOperationsDoNotDisturbRx : Obligations.PureOperationsDoNotDisturbRx := by
  unfold Obligations.PureOperationsDoNotDisturbRx
  intro i b s hreset hrx
  obtain ⟨o', hx⟩ := exec_pure hreset hrx s
  have hrun : execAll [i, .rx b] s = .next (((rx b s).1.answer o').answer (rx b s).2) := by
    rw [execAll_pair hx, exec_rx, rx_answer]
  obtain ⟨htrace, -⟩ := rx_frame b s
  refine ⟨_, _, (rx b s).2, o', exec_rx b s, by rw [State.answer_trace, htrace], hrun, ?_, rfl⟩
  rw [State.answer_trace, State.answer_trace, htrace, List.append_assoc]; rfl

end Sys2Proof.Machine
end

section
/-! PROOFS. `RX` under an accepted configuration, case by case (43_framer.md, R163 to R168; 20_memory.md, R40, R48). -/

namespace Sys2Proof.Machine

open Sys2Proof

/-- In `Collecting` the buffer lists `st.pos` cells (R25). -/
theorem State.Inv.length_buf {s : State} (hi : s.Inv) (hm : s.mode = .collecting) : s.buf.length = s.pos := by
  rw [← Memory.length_bytes, hi.length_bytes hm]

/-- With its last byte a telegram has `FRAME_LEN` bytes (R165). -/
theorem State.Inv.length_telegram {s : State} (hi : s.Inv) (hm : s.mode = .collecting) (hp : s.pos + 1 = s.cfg.frameLen)
    (b : Byte) : (s.buf.bytes ++ [b]).length = s.cfg.frameLen := by
  rw [List.length_append, hi.length_bytes hm, List.length_singleton, hp]

/-- Under the invariant, an `RX` under an accepted configuration is never refused: it takes one of the cases of R163. -/
theorem rx_of_configOk {s : State} (hc : s.configOk) (hi : s.Inv) (b : Byte) :
    (s.mode = .idle ∧ rx b s = (if s.start b then s.startCollecting.hold.remember b else s.hold.remember b, .none)) ∨
    (s.mode = .collecting ∧ s.pos + 1 ≠ s.cfg.frameLen ∧ rx b s = ((s.store b).hold.remember b, .none)) ∨
    (s.mode = .collecting ∧ s.pos + 1 = s.cfg.frameLen ∧
      rx b s = ((s.store b).selfReset.hold.remember b, .event (dispatchEvent s.cfg (s.buf.bytes ++ [b])))) := by
  cases hm : s.mode with
  | idle => exact .inl ⟨rfl, rx_of_idle hc hm⟩
  | collecting =>
    by_cases hp : s.pos + 1 = s.cfg.frameLen
    · exact .inr (.inr ⟨rfl, hp, rx_of_dispatch hc hm hp
        (dispatch_eq_dispatchEvent hc.1 (hi.length_telegram hm hp b))⟩)
    · exact .inr (.inl ⟨rfl, hp, rx_of_store hc hm hp⟩)

/-- An accepted `RX` holds the session to its configuration (R50, R242; log entry 2). -/
theorem rx_session_of_configOk {s : State} (hc : s.configOk) (hi : s.Inv) (b : Byte) :
    (rx b s).1.session = some s.cfg := by
  rcases rx_of_configOk hc hi b with ⟨-, h⟩ | ⟨-, -, h⟩ | ⟨-, -, h⟩ <;> rw [h]
  · simp only; split <;> rfl
  · rfl
  · rfl

/-! ### The next state in each case (R163) -/

/-- In `Idle`, an `RX` that is no start changes only the previous byte. -/
theorem exec_rx_of_no_start {s : State} {b : Byte} (hc : s.configOk) (hm : s.mode = .idle) (hs : ¬s.start b) :
    exec (.rx b) s = .next { s with prev := some b, session := some s.cfg, trace := s.trace ++ [.none] } := by
  rw [exec_rx, rx_of_idle hc hm, if_neg hs]; rfl

/-- The start pair begins a collection. -/
theorem exec_rx_of_start {s : State} {b : Byte} (hc : s.configOk) (hm : s.mode = .idle) (hs : s.start b) :
    exec (.rx b) s = .next { s with mode := .collecting, buf := [(0, 0x7e), (1, 0xa0)], pos := 2, prev := some b,
                                    session := some s.cfg, trace := s.trace ++ [.none] } := by
  rw [exec_rx, rx_of_idle hc hm, if_pos hs]; rfl

/-- A byte before the last is stored at `st.pos` and counted. -/
theorem exec_rx_of_store {s : State} (hc : s.configOk) (hi : s.Inv) (hm : s.mode = .collecting)
    (hp : s.pos + 1 ≠ s.cfg.frameLen) (b : Byte) :
    exec (.rx b) s = .next { s with buf := s.buf ++ [(s.pos, b)], pos := s.pos + 1, prev := some b,
                                    session := some s.cfg, trace := s.trace ++ [.none] } := by
  have happend : s.buf ++ [(s.pos, b)] = s.buf.append b := by rw [Memory.append, hi.length_buf hm]
  rw [exec_rx, rx_of_store hc hm hp, happend]; rfl

/-- Settles O34: one lemma for each case; the last byte is `exec_rx_of_full`, whose event is that of the dispatch. -/
theorem rxTakesItsCase : Obligations.RxTakesItsCase := by
  unfold Obligations.RxTakesItsCase
  intro b s hvalid hkept
  have hc : s.configOk := ⟨hvalid, hkept⟩
  exact ⟨exec_rx_of_no_start hc, fun hm hprev hb => exec_rx_of_start hc hm ⟨hprev, hb⟩,
    fun hi hm hp => exec_rx_of_store hc hi hm hp b,
    fun hi hm hp => ⟨_, dispatch_eq_dispatchEvent hvalid (hi.length_telegram hm hp b), exec_rx_of_full hc hi hm hp b⟩⟩

/-- Settles O37: the byte is appended, so it is read at the old length, which is `st.pos`, and every other read is as
before. -/
theorem rxWritesOneByteOfTheBuffer : Obligations.RxWritesOneByteOfTheBuffer := by
  unfold Obligations.RxWritesOneByteOfTheBuffer
  intro b s hvalid hkept hi hm hp
  have hwf : s.buf.wf := hi.1
  refine ⟨_, by rw [exec_rx, rx_of_store ⟨hvalid, hkept⟩ hm hp], Memory.wf_append hwf b, ?_, fun a ha => ?_⟩
  · rw [← hi.length_buf hm]; exact Memory.read_append_self hwf b
  · exact Memory.read_append_of_ne hwf b (by rwa [hi.length_buf hm])

/-- Settles O38: `dispatch_eq_dispatchEvent` names the event, and the FCS decides which of the two it is. -/
theorem dispatchHasTwoOutcomes : Obligations.DispatchHasTwoOutcomes := by
  unfold Obligations.DispatchHasTwoOutcomes
  intro c f hvalid hlen
  have hdispatch := dispatch_eq_dispatchEvent hvalid hlen
  obtain ⟨-, -, -, hmin, hmax, hkey⟩ := hvalid
  refine ⟨fun hbad => by rw [hdispatch, dispatchEvent, if_neg hbad], fun hintact => ⟨framePlaintext c c.key f,
    decryptFrame_of_fits hkey (by omega) (by omega), ?_, by rw [hdispatch, dispatchEvent, if_pos hintact]⟩⟩
  rw [length_framePlaintext, hlen, Nat.sub_right_comm]

/-- Settles O41: the self-reset keeps the `0x7e` in `st.prev`, which makes the next `0xa0` a start; `RESET` forgets it. -/
theorem sharedFlagStartsTheNextTelegram : Obligations.SharedFlagStartsTheNextTelegram := by
  unfold Obligations.SharedFlagStartsTheNextTelegram
  intro s hvalid hkept
  refine ⟨fun hi hm hp => ?dispatched, ?afterReset⟩
  case dispatched =>
    refine ⟨_, (execAll_pair (exec_rx_of_full ⟨hvalid, hkept⟩ hi hm hp 0x7e)).trans
      (exec_rx_of_start ⟨hvalid, .inr rfl⟩ rfl ⟨rfl, rfl⟩), rfl, rfl, rfl⟩
  case afterReset =>
    refine ⟨_, (execAll_pair (exec_reset s)).trans (exec_rx_of_no_start ⟨hvalid, .inr rfl⟩ rfl nofun), rfl, rfl, rfl⟩

end Sys2Proof.Machine
end

section
/-! PROOFS. Refusals and failures: which operation has which, for which cause, and what it leaves (60_exceptions.md, R210,
R217, R219, R222). -/

namespace Sys2Proof.Machine

open Sys2Proof

/-! ### The answers of the pure functions -/

/-- What `verify` can answer (R98). -/
theorem verify_cases (input : Bytes) (skip tl cut : Nat) :
    (tl ≠ 2 ∧ verify input skip tl cut = .refuse .badTrailerLength) ∨
    (input.length < skip + tl + cut ∧ verify input skip tl cut = .raise .malformedFrameError) ∨
    ∃ v, verify input skip tl cut = .result v := by
  by_cases htl : tl = 2
  case neg => exact .inl ⟨htl, verify_of_tl_ne htl input skip cut⟩
  subst htl
  by_cases hlen : input.length < skip + 2 + cut
  · exact .inr (.inl ⟨hlen, verify_of_short hlen⟩)
  · exact .inr (.inr ⟨_, by rw [verify, if_neg (not_not.mpr rfl), if_neg hlen]⟩)

/-- What the checks of `DECRYPT` after that of the configuration can answer (R216). -/
theorem decryptVerified_cases (cfg : Cfg) (key frame : Bytes) :
    (key.length ∉ [16, 24, 32] ∧ decryptVerified cfg key frame = .refuse .badKeyLength) ∨
    (verify frame 1 2 1 ≠ .result true ∧ decryptVerified cfg key frame = .refuse .unverified) ∨
    (frame.length < cfg.ctOff + 3 ∧ decryptVerified cfg key frame = .raise .malformedFrameError) ∨
    ((2 ^ 32 - 2) * 16 + cfg.ctOff + 3 < frame.length ∧ decryptVerified cfg key frame = .refuse .counterWrap) ∨
    ∃ pt, decryptVerified cfg key frame = .result pt := by
  by_cases hkey : keyLengthOk key
  case neg => exact .inl ⟨by simpa using hkey, decryptVerified_of_badKey hkey⟩
  by_cases hframe : 4 ≤ frame.length ∧ intact frame
  case neg => exact .inr (.inl ⟨mt verifyFrame_eq_true_iff.mp hframe, decryptVerified_of_unverified hkey hframe⟩)
  have hverified := decryptVerified_of_verified (cfg := cfg) hkey hframe
  rcases Nat.lt_or_ge frame.length (cfg.ctOff + 3) with hshort | hmin
  · exact .inr (.inr (.inl ⟨hshort, hverified.trans (decryptFrame_of_short hkey hshort)⟩))
  rcases Nat.lt_or_ge ((2 ^ 32 - 2) * 16 + cfg.ctOff + 3) frame.length with hlong | hmax
  · exact .inr (.inr (.inr (.inl ⟨hlong, hverified.trans (decryptFrame_of_tooLong hkey hlong)⟩)))
  · exact .inr (.inr (.inr (.inr ⟨_, hverified.trans (decryptFrame_of_fits hkey hmin hmax)⟩)))

/-- What `pdecode` can answer (R193). -/
theorem pdecode_cases (p : Bytes) (profile : Profile) (off : Int) :
    (∃ code, profile = .unsupported code ∧ pdecode p profile off = .raise .unsupportedProfileError) ∨
    (profile = .wn ∧ p.length < 74 ∧ pdecode p profile off = .raise .malformedFrameError) ∨
    (profile = .kn ∧ p.length < 86 ∧ pdecode p profile off = .raise .malformedFrameError) ∨
    ∃ r, pdecode p profile off = .result r := by
  cases profile with
  | unsupported code => exact .inl ⟨code, rfl, pdecode_unsupported p code off⟩
  | wn =>
    rcases Nat.lt_or_ge p.length 74 with hshort | hlen
    · exact .inr (.inl ⟨rfl, hshort, pdecode_of_short (t := tableWn) rfl hshort off⟩)
    · exact .inr (.inr (.inr ⟨_, pdecode_of_le (t := tableWn) rfl hlen off⟩))
  | kn =>
    rcases Nat.lt_or_ge p.length 86 with hshort | hlen
    · exact .inr (.inr (.inl ⟨rfl, hshort, pdecode_of_short (t := tableKn) rfl hshort off⟩))
    · exact .inr (.inr (.inr ⟨_, pdecode_of_le (t := tableKn) rfl hlen off⟩))

/-! ### An unaccepted configuration (R222) -/

theorem exec_rx_of_not_configOk {s : State} (h : ¬s.configOk) (b : Byte) :
    exec (.rx b) s = .next (s.refuse .configInvalid) := by
  rw [exec_rx, rx_of_not_configOk h]; rfl

theorem exec_decrypt_of_not_configOk {s : State} (h : ¬s.configOk) (key frame : Bytes) :
    exec (.decrypt key frame) s = .next (s.refuse .configInvalid) := if_pos h

/-- Settles O35: `RX` and `DECRYPT` test the configuration first. -/
theorem invalidConfigurationIsRefused : Obligations.InvalidConfigurationIsRefused := by
  unfold Obligations.InvalidConfigurationIsRefused
  exact fun s h => ⟨exec_rx_of_not_configOk h, exec_decrypt_of_not_configOk h⟩

/-! ### The cause of an outcome -/

/-- For which reason which operation is refused (R219). -/
def RefusalCause (s : State) (i : Instr) : Reason → Prop
  | .illegalCommand => False
  | .configInvalid => ((∃ b, i = .rx b) ∨ ∃ key frame, i = .decrypt key frame) ∧ ¬(cfgValid s.cfg ∧ s.cfgKept)
  | .badTrailerLength => ∃ input skip tl cut, i = .verify input skip tl cut ∧ tl ≠ 2
  | .badKeyLength => ∃ key frame, i = .decrypt key frame ∧ key.length ∉ [16, 24, 32]
  | .unverified => ∃ key frame, i = .decrypt key frame ∧ verify frame 1 2 1 ≠ .result true
  | .counterWrap => ∃ key frame, i = .decrypt key frame ∧ (2 ^ 32 - 2) * 16 + s.cfg.ctOff + 3 < frame.length

/-- Which operation raises which failure (R210). -/
def FailureCause (s : State) (i : Instr) : Failure → Prop
  | .checksumError => False
  | .unsupportedProfileError => ∃ code off plaintext, i = .pdecode (.unsupported code) off plaintext
  | .malformedFrameError =>
    (∃ input skip tl cut, i = .verify input skip tl cut ∧ input.length < skip + tl + cut) ∨
    (∃ key frame, i = .decrypt key frame ∧ frame.length < s.cfg.ctOff + 3) ∨
    (∃ off plaintext, i = .pdecode .wn off plaintext ∧ plaintext.length < 74) ∨
    (∃ off plaintext, i = .pdecode .kn off plaintext ∧ plaintext.length < 86)

/-- Which operation causes a `FAIL` event, of which kind, and the framer it leaves (R166, R217). -/
def FailEventCause (s : State) (i : Instr) (u : State) (k : Failure) : Prop :=
  k = .checksumError ∧ ∃ b, i = .rx b ∧ verify (s.buf.bytes ++ [b]) 1 2 1 = .result false ∧
    u = { s with mode := .idle, buf := [], pos := 0, prev := some b, session := some s.cfg }

/-- The cause of the outcome of an operation that leaves the state `u`, before the outcome is recorded. -/
def OutcomeCause (s : State) (i : Instr) (u : State) : OpOutcome → Prop
  | .refusal r => u = s ∧ RefusalCause s i r
  | .failure k => u = s ∧ FailureCause s i k
  | .event (.fail k) => FailEventCause s i u k
  | .event _ => True
  | .none => True
  | .value _ => True

/-- The operation leaves the state `u`, records the outcome `o`, and `o` has its cause. -/
def CausedOutcome (s : State) (i : Instr) (u : State) (o : OpOutcome) : Prop :=
  exec i s = .next (u.answer o) ∧ u.trace = s.trace ∧ OutcomeCause s i u o

/-- The event of a telegram is `FAIL(ChecksumError)` or `DECODED`, and the first only when it does not verify (R166). -/
theorem dispatchEvent_cases {cfg : Cfg} {f : Bytes} (hvalid : cfgValid cfg) (hlen : f.length = cfg.frameLen) :
    (∃ pt, dispatchEvent cfg f = .decoded pt) ∨
    (verify f 1 2 1 = .result false ∧ dispatchEvent cfg f = .fail .checksumError) := by
  by_cases hintact : intact f
  · exact .inl ⟨_, if_pos hintact⟩
  · obtain ⟨hst, hic, hct, hmin, -⟩ := hvalid
    have hverify := verifyFrame_of_le (show 4 ≤ f.length by omega)
    rw [decide_eq_false hintact] at hverify
    exact .inr ⟨hverify, if_neg hintact⟩

theorem exists_causedOutcome_rx {s : State} (hi : s.Inv) (b : Byte) : ∃ u o, CausedOutcome s (.rx b) u o := by
  by_cases hc : s.configOk
  case neg => exact ⟨s, _, exec_rx_of_not_configOk hc b, rfl, rfl, .inl ⟨b, rfl⟩, hc⟩
  obtain ⟨htrace, -⟩ := rx_frame b s
  rcases rx_of_configOk hc hi b with ⟨-, h⟩ | ⟨-, -, h⟩ | ⟨hm, hp, h⟩
  · exact ⟨_, .none, by rw [exec_rx, h], by rw [← htrace, h], trivial⟩
  · exact ⟨_, .none, by rw [exec_rx, h], by rw [← htrace, h], trivial⟩
  · refine ⟨_, _, by rw [exec_rx, h], by rw [← htrace, h], ?_⟩
    rcases dispatchEvent_cases hc.1 (hi.length_telegram hm hp b) with ⟨pt, hev⟩ | ⟨hverify, hev⟩ <;> rw [hev]
    · trivial
    · exact ⟨rfl, b, rfl, hverify, rfl⟩

theorem exists_causedOutcome_verify (s : State) (input : Bytes) (skip tl cut : Nat) :
    ∃ u o, CausedOutcome s (.verify input skip tl cut) u o := by
  have hx := exec_verify input skip tl cut s
  rcases verify_cases input skip tl cut with ⟨htl, h⟩ | ⟨hlen, h⟩ | ⟨v, h⟩ <;> rw [h] at hx
  · exact ⟨s, _, hx, rfl, rfl, _, _, _, _, rfl, htl⟩
  · exact ⟨s, _, hx, rfl, rfl, .inl ⟨_, _, _, _, rfl, hlen⟩⟩
  · exact ⟨s, _, hx, rfl, trivial⟩

theorem exists_causedOutcome_decrypt (s : State) (key frame : Bytes) :
    ∃ u o, CausedOutcome s (.decrypt key frame) u o := by
  by_cases hc : s.configOk
  case neg => exact ⟨s, _, exec_decrypt_of_not_configOk hc key frame, rfl, rfl, .inr ⟨key, frame, rfl⟩, hc⟩
  have hx := exec_decrypt_of_configOk hc key frame
  rcases decryptVerified_cases s.cfg key frame with ⟨hkey, h⟩ | ⟨hframe, h⟩ | ⟨hshort, h⟩ | ⟨hlong, h⟩ | ⟨pt, h⟩ <;>
    rw [h] at hx
  · exact ⟨s, _, hx, rfl, rfl, _, _, rfl, hkey⟩
  · exact ⟨s, _, hx, rfl, rfl, _, _, rfl, hframe⟩
  · exact ⟨s, _, hx, rfl, rfl, .inr (.inl ⟨_, _, rfl, hshort⟩)⟩
  · exact ⟨s, _, hx, rfl, rfl, _, _, rfl, hlong⟩
  · exact ⟨s, _, hx, rfl, trivial⟩

theorem exists_causedOutcome_pdecode (s : State) (profile : Profile) (off : Int) (p : Bytes) :
    ∃ u o, CausedOutcome s (.pdecode profile off p) u o := by
  have hx := exec_pdecode profile off p s
  rcases pdecode_cases p profile off with ⟨code, rfl, h⟩ | ⟨rfl, hlen, h⟩ | ⟨rfl, hlen, h⟩ | ⟨r, h⟩ <;> rw [h] at hx
  · exact ⟨s, _, hx, rfl, rfl, _, _, _, rfl⟩
  · exact ⟨s, _, hx, rfl, rfl, .inr (.inr (.inl ⟨_, _, rfl, hlen⟩))⟩
  · exact ⟨s, _, hx, rfl, rfl, .inr (.inr (.inr ⟨_, _, rfl, hlen⟩))⟩
  · exact ⟨s, _, hx, rfl, trivial⟩

/-- Every refusal and every failure has its cause (R210, R219). -/
theorem exists_causedOutcome {s : State} (hi : s.Inv) (i : Instr) : ∃ u o, CausedOutcome s i u o := by
  cases i with
  | reset => exact ⟨_, .none, exec_reset s, rfl, trivial⟩
  | rx b => exact exists_causedOutcome_rx hi b
  | mirror b => exact ⟨s, _, exec_mirror b s, rfl, trivial⟩
  | crc16 data => exact ⟨s, .value _, rfl, rfl, trivial⟩
  | verify input skip tl cut => exact exists_causedOutcome_verify s input skip tl cut
  | decrypt key frame => exact exists_causedOutcome_decrypt s key frame
  | pdecode profile off plaintext => exact exists_causedOutcome_pdecode s profile off plaintext
  | tsnorm year month day hour minute second off => exact ⟨s, _, exec_tsnorm .., rfl, trivial⟩

/-- The outcome that an operation has recorded has its cause. -/
theorem outcomeCause_of_trace {s t : State} {i : Instr} {o : OpOutcome} (hi : s.Inv) (hx : exec i s = .next t)
    (ht : t.trace = s.trace ++ [o]) : ∃ u, t = u.answer o ∧ u.trace = s.trace ∧ OutcomeCause s i u o := by
  obtain ⟨u, o', hx', htrace, hcause⟩ := exists_causedOutcome hi i
  rw [hx] at hx'
  obtain rfl := Host.Outcome.next.inj hx'
  rw [State.answer_trace, htrace] at ht
  obtain rfl : o' = o := by simpa using ht
  exact ⟨u, rfl, htrace, hcause⟩

/-- Settles O10: the refusal that is recorded has the cause that `RefusalCause` spells out. -/
theorem refusalsHaveTheirCause : Obligations.RefusalsHaveTheirCause := by
  unfold Obligations.RefusalsHaveTheirCause
  intro i s t r hi hx ht
  obtain ⟨u, rfl, -, rfl, hcause⟩ := outcomeCause_of_trace hi hx ht
  exact ⟨rfl, hcause⟩

/-- Settles O11: likewise for a failure, by `FailureCause`, and for a `FAIL` event, by `FailEventCause`. -/
theorem failuresHaveTheirCause : Obligations.FailuresHaveTheirCause := by
  unfold Obligations.FailuresHaveTheirCause
  intro i s t k hi hx
  refine ⟨fun ht => ?failure, fun ht => ?event⟩
  case failure =>
    obtain ⟨u, rfl, -, rfl, hcause⟩ := outcomeCause_of_trace hi hx ht
    exact ⟨rfl, hcause⟩
  case event =>
    obtain ⟨u, rfl, -, rfl, b, rfl, hverify, rfl⟩ := outcomeCause_of_trace hi hx ht
    exact ⟨rfl, b, rfl, hverify, rfl⟩

end Sys2Proof.Machine
end

section
/-! PROOFS. The configuration a session is held to, and what `DECRYPT` reads of it (20_memory.md, R50; 42_aes_ctr.md, R147;
70_reset_and_hazards.md, R240, R242). -/

namespace Sys2Proof.Machine

open Sys2Proof

/-- A configuration other than the one the session is held to is not accepted (R50, R219). -/
theorem not_configOk_supply {s : State} {c held : Cfg} (hsession : s.session = some held) (hne : c ≠ held) :
    ¬(s.supply c).configOk := by
  rintro ⟨-, hkept⟩
  rw [State.cfgKept, State.supply_session, State.supply_cfg, hsession] at hkept
  rcases hkept with h | h <;> cases h
  exact hne rfl

/-- Supplying the old configuration again undoes the change (D11). -/
theorem State.supply_supply_cfg (s : State) (c : Cfg) : (s.supply c).supply s.cfg = s := rfl

/-- An `RX` right after `RESET`, under a valid configuration, is no start and holds the session to that configuration
(R161, R163). -/
theorem execAll_reset_rx {s : State} (hvalid : cfgValid s.cfg) (b : Byte) : execAll [.reset, .rx b] s =
    .next { s with mode := .idle, buf := [], pos := 0, prev := some b, session := some s.cfg,
                   trace := s.trace ++ [.none, .none] } := by
  have hconfig : (s.resetFramer.hold.answer .none).configOk := ⟨hvalid, .inr rfl⟩
  rw [execAll_pair (exec_reset s), exec_rx_of_no_start hconfig rfl nofun, State.answer_trace, State.hold_trace,
    State.resetFramer_trace, List.append_assoc]
  rfl

/-- Settles O36: the changed configuration is not the session's, so both operations are refused; the old one makes the state
what it was; after `RESET` the new one is the session's; and an accepted `RX` holds the session to its own. -/
theorem changedConfigurationNeedsReset : Obligations.ChangedConfigurationNeedsReset := by
  unfold Obligations.ChangedConfigurationNeedsReset
  intro s c b hne hvalid
  refine ⟨fun hsession => ?held, fun hsession hvalid' hi => ?created⟩
  case held =>
    have hrefused := not_configOk_supply hsession hne
    exact ⟨exec_rx_of_not_configOk hrefused b, exec_decrypt_of_not_configOk hrefused,
      by rw [State.supply_supply_cfg], execAll_reset_rx (s := s.supply c) hvalid b⟩
  case created =>
    obtain ⟨-, -, hcfg, -⟩ := rx_frame b s
    refine ⟨_, exec_rx b s, hcfg, ?_⟩
    rw [State.answer_session, State.answer_cfg, hcfg]
    exact rx_session_of_configOk ⟨hvalid', .inl hsession⟩ hi b

/-! ### `DECRYPT` -/

/-- The outcome with which an answer ends a pure operation. -/
def Answer.outcome {α : Type} (value : α → Value) : Answer α → OpOutcome
  | .result a => .value (value a)
  | .raise k => .failure k
  | .refuse r => .refusal r

theorem State.finish_eq_answer {α : Type} (s : State) (value : α → Value) (a : Answer α) :
    s.finish value a = s.answer (a.outcome value) := by
  cases a <;> rfl

/-- Under an accepted configuration `DECRYPT` records the outcome of its checks and changes nothing else (R9, R147). -/
theorem exec_decrypt_eq_answer {s : State} (hc : s.configOk) (key frame : Bytes) :
    exec (.decrypt key frame) s = .next (s.answer ((decryptVerified s.cfg key frame).outcome .bytes)) := by
  rw [exec_decrypt_of_configOk hc, State.finish_eq_answer]

/-- None of these checks is that of the configuration (R216). -/
theorem decryptVerified_outcome_ne (cfg : Cfg) (key frame : Bytes) :
    (decryptVerified cfg key frame).outcome .bytes ≠ .refusal .configInvalid := by
  rcases decryptVerified_cases cfg key frame with ⟨-, h⟩ | ⟨-, h⟩ | ⟨-, h⟩ | ⟨-, h⟩ | ⟨pt, h⟩ <;> rw [h] <;> exact nofun

/-- Settles O31: the checks and the result of `DECRYPT` read the offsets of the configuration only, so the two outcomes are
the same by definition. -/
theorem decryptDoesNotReadTheConfiguredKey : Obligations.DecryptDoesNotReadTheConfiguredKey := by
  unfold Obligations.DecryptDoesNotReadTheConfiguredKey
  intro s key frame otherKey otherLen otherSession t hvalid hkept hvalid' hkept'
  exact ⟨_, exec_decrypt_eq_answer ⟨hvalid, hkept⟩ key frame, exec_decrypt_eq_answer ⟨hvalid', hkept'⟩ key frame⟩

/-- Settles O60: with no session to be held to, the configuration supplied is accepted, as it is after a `RESET`; and in
`Idle` without a previous byte an `RX` is no start. -/
theorem configurationBeforeTheFirstRxNeedsNoReset : Obligations.ConfigurationBeforeTheFirstRxNeedsNoReset := by
  unfold Obligations.ConfigurationBeforeTheFirstRxNeedsNoReset
  intro s c hsession hvalid
  have hc : (s.supply c).configOk := ⟨hvalid, .inl hsession⟩
  refine ⟨fun key frame => ?decrypt, fun hm hprev b => ?rx⟩
  case decrypt =>
    refine ⟨_, decryptVerified_outcome_ne c key frame, exec_decrypt_eq_answer hc key frame, ?_⟩
    rw [execAll_pair (exec_reset _), exec_decrypt_eq_answer ⟨hvalid, .inr rfl⟩, State.answer_eq, State.answer_trace,
      List.append_assoc]
    rfl
  case rx =>
    have hs : ¬(s.supply c).start b := by
      rw [State.start, State.supply_prev, hprev]; exact nofun
    exact exec_rx_of_no_start hc hm hs

end Sys2Proof.Machine
end

section
/-! PROOFS. The layout of a telegram (30_encoding.md, R60, R63). -/

namespace Sys2Proof

/-- When a field stands at offset `a` of a string, its slice is the field, and what follows it stands after it. -/
theorem slice_of_drop_eq_append {s field rest : Bytes} {a b : Nat} (h : s.drop a = field ++ rest)
    (hb : a + field.length = b) : slice s a b = field ∧ s.drop b = rest := by
  subst hb
  constructor
  · rw [slice, List.drop_take, h, Nat.add_sub_cancel_left, List.take_left]
  · rw [← List.drop_drop, h, List.drop_left]

end Sys2Proof

namespace Sys2Proof.Machine

open Sys2Proof

/-- The number of covered bytes of a telegram that fits: all but the start flag, the FCS and the end flag (R60, R63). -/
theorem Telegram.fits.length_covered {c : Cfg} {tg : Telegram} (h : tg.fits c) : tg.covered.length + 4 = c.frameLen := by
  obtain ⟨hheader, htitle, hgap1, hcounter, hgap2, hcipher⟩ := h
  simp only [Telegram.covered, List.length_cons, List.length_append]
  omega

theorem Telegram.fits.length_frame {c : Cfg} {tg : Telegram} (h : tg.fits c) : tg.frame.length = c.frameLen := by
  rw [Telegram.length_frame, h.length_covered]

/-- The FCS of a telegram, two bytes (R63). -/
def Telegram.fcs (tg : Telegram) : Bytes := be16 (calcCrc16 tg.covered).toNat

/-- The covered bytes, the FCS and the end flag stand at the ends of the layout (R63). -/
theorem Telegram.fits.slice_covered {c : Cfg} {tg : Telegram} (h : tg.fits c) :
    slice tg.frame 1 (c.frameLen - 3) = tg.covered ∧ slice tg.frame (c.frameLen - 3) (c.frameLen - 1) = tg.fcs ∧
      tg.frame[c.frameLen - 1]? = some tg.endFlag := by
  have hlen := h.length_covered
  have hstart : tg.frame.drop 1 = tg.covered ++ (tg.fcs ++ [tg.endFlag]) := List.append_assoc ..
  obtain ⟨hcovered, hfcs⟩ := slice_of_drop_eq_append hstart (show _ = c.frameLen - 3 by omega)
  obtain ⟨hfcs, hend⟩ := slice_of_drop_eq_append hfcs
    (show c.frameLen - 3 + 2 = c.frameLen - 1 by omega)
  refine ⟨hcovered, hfcs, ?_⟩
  rw [← List.head?_drop, hend, List.head?_cons]

/-- The fields stand at the offsets of the configuration, in the order of R60. -/
theorem Telegram.fits.slice_fields {c : Cfg} {tg : Telegram} (h : tg.fits c) :
    slice tg.frame 2 c.stOff = tg.header ∧ slice tg.frame c.stOff (c.stOff + 8) = tg.systemTitle ∧
    slice tg.frame (c.stOff + 8) c.icOff = tg.gap1 ∧ slice tg.frame c.icOff (c.icOff + 4) = tg.invocationCounter ∧
    slice tg.frame (c.icOff + 4) c.ctOff = tg.gap2 ∧ slice tg.frame c.ctOff (c.frameLen - 3) = tg.ciphertext := by
  obtain ⟨hheader, htitle, hgap1, hcounter, hgap2, hcipher⟩ := h
  have hstart : tg.frame.drop 2 = tg.header ++ (tg.systemTitle ++ (tg.gap1 ++ (tg.invocationCounter ++ (tg.gap2 ++
      (tg.ciphertext ++ (tg.fcs ++ [tg.endFlag])))))) := by
    simp only [Telegram.frame, Telegram.covered, Telegram.fcs, List.cons_append, List.append_assoc, List.drop_succ_cons,
      List.drop_zero]
  obtain ⟨sheader, dtitle⟩ := slice_of_drop_eq_append hstart (show _ = c.stOff by omega)
  obtain ⟨stitle, dgap1⟩ := slice_of_drop_eq_append dtitle (show _ = c.stOff + 8 by omega)
  obtain ⟨sgap1, dcounter⟩ := slice_of_drop_eq_append dgap1 (show _ = c.icOff by omega)
  obtain ⟨scounter, dgap2⟩ := slice_of_drop_eq_append dcounter (show _ = c.icOff + 4 by omega)
  obtain ⟨sgap2, dcipher⟩ := slice_of_drop_eq_append dgap2 (show _ = c.ctOff by omega)
  obtain ⟨scipher, -⟩ := slice_of_drop_eq_append dcipher (show _ = c.frameLen - 3 by omega)
  exact ⟨sheader, stitle, sgap1, scounter, sgap2, scipher⟩

theorem Telegram.intact_frame (tg : Telegram) : intact tg.frame := intact_of_fcs 0x7e tg.endFlag tg.covered

/-- Settles O45: the fields are cut off one after the other by `slice_of_drop_eq_append`, and the FCS is that of the bytes it
covers. -/
theorem telegramLayout : Obligations.TelegramLayout := by
  unfold Obligations.TelegramLayout
  intro c tg _ h
  obtain ⟨sheader, stitle, sgap1, scounter, sgap2, scipher⟩ := h.slice_fields
  obtain ⟨scovered, sfcs, hend⟩ := h.slice_covered
  exact ⟨h.length_frame, rfl, rfl, sheader, stitle, sgap1, scounter, sgap2, scipher, by rw [scovered, sfcs, Telegram.fcs],
    hend, tg.intact_frame⟩

end Sys2Proof.Machine
end

section
/-! PROOFS. Counter mode byte by byte, and applied twice (42_aes_ctr.md, R142, R150). -/

namespace Sys2Proof.Machine

open Sys2Proof

/-- The data XORed with the keystream, byte by byte (R142). -/
def xorKeystream (key nonce : Bytes) (ctr0 : Nat) (data : Bytes) : Bytes :=
  data.mapIdx fun j d => d ^^^ keystreamByte key nonce ctr0 j

theorem length_xorKeystream (key nonce : Bytes) (ctr0 : Nat) (data : Bytes) :
    (xorKeystream key nonce ctr0 data).length = data.length := List.length_mapIdx

theorem getElem?_xorKeystream (key nonce : Bytes) (ctr0 : Nat) (data : Bytes) (j : Nat) :
    (xorKeystream key nonce ctr0 data)[j]? = data[j]?.map (· ^^^ keystreamByte key nonce ctr0 j) :=
  List.getElem?_mapIdx

/-- XOR with the same keystream twice restores the data. -/
theorem xorKeystream_xorKeystream (key nonce : Bytes) (ctr0 : Nat) (data : Bytes) :
    xorKeystream key nonce ctr0 (xorKeystream key nonce ctr0 data) = data := by
  refine List.ext_getElem? fun j => ?_
  rw [getElem?_xorKeystream, getElem?_xorKeystream, Option.map_map]
  cases data[j]? with
  | none => rfl
  | some d => simp

/-- `ctr_xor` answers an output exactly when the counter fits, and it is the data XORed with the keystream (R142, R143). -/
theorem ctrXor_eq_result_iff {key nonce data out : Bytes} {ctr0 : Nat} : ctrXor key nonce ctr0 data = .result out ↔
    CounterFits ctr0 0 data.length ∧ out = xorKeystream key nonce ctr0 data := by
  by_cases hfits : CounterFits ctr0 0 data.length
  · rw [ctrXor_eq hfits, ← xorKeystream, Answer.result.injEq, eq_comm]
    exact (and_iff_right hfits).symm
  · rw [ctrXor_refused hfits]
    exact ⟨nofun, fun h => absurd h.1 hfits⟩

/-- Encryption is the same function as decryption (R150). -/
theorem ctrXor_of_ctrXor {key nonce data out : Bytes} {ctr0 : Nat} (h : ctrXor key nonce ctr0 data = .result out) :
    ctrXor key nonce ctr0 out = .result data := by
  obtain ⟨hfits, rfl⟩ := ctrXor_eq_result_iff.mp h
  rw [ctrXor_eq_result_iff, length_xorKeystream, xorKeystream_xorKeystream]
  exact ⟨hfits, rfl⟩

/-- Settles O29, by `ctrXor_of_ctrXor`. -/
theorem ctrXorTwiceRestores : Obligations.CtrXorTwiceRestores := by
  unfold Obligations.CtrXorTwiceRestores
  exact fun _ _ _ _ _ => ctrXor_of_ctrXor

/-- Settles O27: the output is `xorKeystream`, whose length and bytes are those of the lemmas above. -/
theorem ctrXorIsBytewise : Obligations.CtrXorIsBytewise := by
  unfold Obligations.CtrXorIsBytewise
  intro key nonce data ctr0 hlast
  refine ⟨_, ctrXor_eq_result_iff.mpr ⟨counterFits_of_le hlast, rfl⟩, length_xorKeystream _ _ _ _, fun j d hd => ?_⟩
  rw [getElem?_xorKeystream, hd]
  rfl

end Sys2Proof.Machine
end

section
/-! PROOFS. Streams of bytes: no start without the start pair, one dispatch for each telegram, and the telegram end to end
(43_framer.md, R173, R174; 45_host_profile_decode.md, R200, R201). -/

namespace Sys2Proof.Machine

open Sys2Proof

/-- Feeding a byte is one `RX`, whose next state the other bytes go on from (R74). -/
theorem execAll_feed_cons_of_next {b : Byte} {bs : Bytes} {s t : State} (h : exec (.rx b) s = .next t) :
    execAll (feed (b :: bs)) s = execAll (feed bs) t := by
  show execAll (.rx b :: feed bs) s = _
  simp only [execAll, h]

/-- Only the byte `0xa0` can be a start (R162). -/
theorem not_start_of_ne {s : State} {b : Byte} (h : b ≠ 0xa0) : ¬s.start b := fun hs => h hs.2

/-! ### A stream without the start pair (R174) -/

/-- Nowhere in the string does `0xa0` stand right after `0x7e`. -/
def NoStartPair (bs : Bytes) : Prop := ∀ i : Nat, ¬(bs[i]? = some 0x7e ∧ bs[i + 1]? = some 0xa0)

theorem NoStartPair.of_append {xs ys : Bytes} (h : NoStartPair (xs ++ ys)) : NoStartPair ys := fun i hi =>
  h (xs.length + i) (by
    rwa [List.getElem?_append_right (by omega), List.getElem?_append_right (by omega), Nat.add_assoc,
      Nat.add_sub_cancel_left, Nat.add_sub_cancel_left])

/-- The first byte of such a stream, the previous byte counted, is no start (R162). -/
theorem NoStartPair.not_start {s : State} {b : Byte} {bs : Bytes} (h : NoStartPair (s.prev.toList ++ b :: bs)) :
    ¬s.start b := by
  rintro ⟨hprev, rfl⟩
  rw [hprev] at h
  exact h 0 ⟨rfl, rfl⟩

/-- An idle framer stays idle along a stream without the start pair (R174). -/
theorem execAll_feed_of_noStartPair (data : Bytes) : ∀ s : State, s.configOk → s.mode = .idle →
    NoStartPair (s.prev.toList ++ data) → execAll (feed data) s =
      .next { s with prev := (s.prev.toList ++ data).getLast?, session := if data = [] then s.session else some s.cfg,
                     trace := s.trace ++ List.replicate data.length .none } := by
  induction data with
  | nil =>
    intro s _ _ _
    obtain ⟨mode, buf, pos, prev, cfg, session, inputs, trace⟩ := s
    cases prev <;> simp [execAll]
  | cons d ds ih =>
    intro s hc hm hpair
    have hnext : exec (.rx d) s = .next ((s.hold.remember d).answer .none) :=
      exec_rx_of_no_start hc hm hpair.not_start
    rw [execAll_feed_cons_of_next hnext, ih ((s.hold.remember d).answer .none) ⟨hc.1, .inr rfl⟩ hm hpair.of_append]
    simp [State.answer, State.hold, State.remember, List.replicate_succ, List.getLast?_append, List.getLast?_cons]

/-- Settles O43: `NoStartPair` is the hypothesis of the statement. -/
theorem onlyTheStartPairStarts : Obligations.OnlyTheStartPairStarts := by
  unfold Obligations.OnlyTheStartPairStarts
  exact fun data s hvalid hkept hm hpair => execAll_feed_of_noStartPair data s ⟨hvalid, hkept⟩ hm hpair

/-! ### A stream that begins with the start pair (R173) -/

/-- The state of a framer that has collected the bytes `held` since it was idle in `s`. -/
def State.collected (s : State) (held : Bytes) : State :=
  { s with mode := .collecting, buf := Memory.ofBytes held, pos := held.length, prev := held.getLast?,
           session := some s.cfg, trace := s.trace ++ List.replicate held.length .none }

/-- The start pair, fed to an idle framer whatever its previous byte, is collected (R162, R163). -/
theorem execAll_feed_startPair {s : State} (hc : s.configOk) (hm : s.mode = .idle) :
    execAll (feed [0x7e, 0xa0]) s = .next (s.collected [0x7e, 0xa0]) := by
  have hflag : ¬s.start 0x7e := not_start_of_ne (by decide)
  have hnext : exec (.rx 0x7e) s = .next ((s.hold.remember 0x7e).answer .none) := exec_rx_of_no_start hc hm hflag
  have hconfig : ((s.hold.remember 0x7e).answer .none).configOk := ⟨hc.1, .inr rfl⟩
  rw [execAll_feed_cons_of_next hnext, execAll_feed_cons_of_next (exec_rx_of_start hconfig hm ⟨rfl, rfl⟩)]
  simp [State.collected, execAll, Memory.ofBytes, Memory.append]

/-- So are the bytes after it, up to one byte before the telegram is complete (R64, R163). -/
theorem execAll_feed_collected {s : State} (hc : s.configOk) (hm : s.mode = .idle) {body : Bytes}
    (hlen : body.length + 2 < s.cfg.frameLen) :
    execAll (feed (0x7e :: 0xa0 :: body)) s = .next (s.collected (0x7e :: 0xa0 :: body)) := by
  have hconfig : (s.collected [0x7e, 0xa0]).configOk := ⟨hc.1, .inr rfl⟩
  have hpos : (s.collected [0x7e, 0xa0]).pos + body.length < s.cfg.frameLen := by
    show 2 + body.length < _; omega
  rw [show feed (0x7e :: 0xa0 :: body) = feed [0x7e, 0xa0] ++ feed body from rfl,
    execAll_append (execAll_feed_startPair hc hm), execAll_feed_of_collecting body _ hconfig rfl hpos]
  have hcount : body.length + 1 + 1 = 2 + body.length := by omega
  simp [State.collected, Memory.ofBytes, hcount, List.replicate_add]

/-- The state after `n` bytes without an event and the last byte `b` of a telegram, before its outcome is recorded: the framer
is idle again (R167). -/
def State.afterTelegram (s : State) (n : Nat) (b : Byte) : State :=
  { s with buf := [], pos := 0, prev := some b, session := some s.cfg, trace := s.trace ++ List.replicate n .none }

/-- The `RX` of the last byte dispatches the telegram (R165, R166, R167). -/
theorem rx_collected {s : State} (hc : s.configOk) (hm : s.mode = .idle) {held : Bytes}
    (hlen : held.length + 1 = s.cfg.frameLen) (b : Byte) : rx b (s.collected held) =
      (s.afterTelegram held.length b, .event (dispatchEvent s.cfg (held ++ [b]))) := by
  have hframe : (held ++ [b]).length = s.cfg.frameLen := by rw [List.length_append, List.length_singleton, hlen]
  have hdispatch := dispatch_eq_dispatchEvent hc.1 hframe
  rw [rx_of_dispatch (s := s.collected held) (ev := dispatchEvent s.cfg (held ++ [b])) ⟨hc.1, .inr rfl⟩ rfl hlen
    (by rw [← hdispatch]; simp [State.collected])]
  simp [State.collected, State.afterTelegram, State.selfReset, State.store, State.hold, State.remember, hm]

/-- A telegram fed to an idle framer: no outcome but `none` before its last byte, then the event of its dispatch (R166, R173). -/
theorem execAll_feed_telegram {s : State} (hc : s.configOk) (hm : s.mode = .idle) {body : Bytes}
    (hlen : body.length + 3 = s.cfg.frameLen) (last : Byte) : execAll (feed (0x7e :: 0xa0 :: (body ++ [last]))) s =
      .next ((s.afterTelegram (s.cfg.frameLen - 1) last).answer
        (.event (dispatchEvent s.cfg (0x7e :: 0xa0 :: (body ++ [last]))))) := by
  have hheld : (0x7e :: 0xa0 :: body).length + 1 = s.cfg.frameLen := hlen
  rw [← hheld, Nat.add_sub_cancel,
    show feed (0x7e :: 0xa0 :: (body ++ [last])) = feed (0x7e :: 0xa0 :: body) ++ feed [last] from
      feed_append (0x7e :: 0xa0 :: body) [last],
    execAll_append (execAll_feed_collected hc hm (by omega)), execAll_feed_cons, rx_collected hc hm hheld]
  rfl

/-- The outcome of a `FEED` that has no outcome but `none` before its last byte is the event of that byte (R74). -/
theorem feedOutcome_of_one_event {bs : Bytes} {s t : State} {n : Nat} {ev : Event} (h : execAll (feed bs) s = .next t)
    (ht : t.trace = s.trace ++ List.replicate n .none ++ [.event ev]) : feedOutcome bs s = [.event ev] := by
  rw [List.append_assoc] at ht
  rw [feedOutcome_eq h ht, List.filter_append, filter_replicate_none]
  rfl

/-- Settles O44: the `00` is no start and leaves the framer idle; the rest is a telegram, whose last byte is the last of
`data`. -/
theorem streamCausesExactlyOneDispatch : Obligations.StreamCausesExactlyOneDispatch := by
  unfold Obligations.StreamCausesExactlyOneDispatch
  intro data s hvalid hkept hm hlen
  have hmin : 17 ≤ s.cfg.frameLen := by obtain ⟨hst, hic, hct, hframe, -⟩ := hvalid; omega
  have hzero : exec (.rx 0x00) s = .next ((s.hold.remember 0x00).answer .none) :=
    exec_rx_of_no_start ⟨hvalid, hkept⟩ hm (not_start_of_ne (by decide))
  have hnonempty : data ≠ [] := by rintro rfl; rw [List.length_nil] at hlen; omega
  obtain ⟨body, last, rfl⟩ := (List.eq_nil_or_concat' data).resolve_left hnonempty
  have hbody : body.length + 3 = s.cfg.frameLen := by simpa using hlen
  have hrun : execAll (feed (0x00 :: 0x7e :: 0xa0 :: (body ++ [last]))) s = .next
      ((((s.hold.remember 0x00).answer .none).afterTelegram (s.cfg.frameLen - 1) last).answer
        (.event (dispatchEvent s.cfg (0x7e :: 0xa0 :: (body ++ [last]))))) :=
    (execAll_feed_cons_of_next hzero).trans
      (execAll_feed_telegram (s := (s.hold.remember 0x00).answer .none) ⟨hvalid, .inr rfl⟩ hm hbody last)
  have hnones : List.replicate s.cfg.frameLen OpOutcome.none = .none :: List.replicate (s.cfg.frameLen - 1) .none := by
    rw [← List.replicate_succ, Nat.sub_add_cancel (by omega)]
  have htrace : (((s.hold.remember 0x00).answer .none).afterTelegram (s.cfg.frameLen - 1) last).trace =
      s.trace ++ List.replicate s.cfg.frameLen .none := by
    rw [hnones, State.afterTelegram, State.answer_trace, List.append_assoc]
    rfl
  refine ⟨_, dispatch_eq_dispatchEvent hvalid (by simpa using hbody), ?_, feedOutcome_of_one_event hrun
    (by rw [State.answer_trace, htrace])⟩
  rw [hrun, State.answer_eq, htrace, List.getLast?_concat]
  rfl

/-! ### A telegram end to end (R201) -/

/-- The bytes of a telegram between the start pair and the end flag (R60). -/
def Telegram.body (tg : Telegram) : Bytes :=
  tg.header ++ tg.systemTitle ++ tg.gap1 ++ tg.invocationCounter ++ tg.gap2 ++ tg.ciphertext ++ tg.fcs

theorem Telegram.frame_eq (tg : Telegram) : tg.frame = 0x7e :: 0xa0 :: (tg.body ++ [tg.endFlag]) := rfl

theorem Telegram.fits.length_body {c : Cfg} {tg : Telegram} (h : tg.fits c) : tg.body.length + 3 = c.frameLen := by
  rw [← h.length_frame, Telegram.frame_eq]
  simp

/-- The dispatch of a telegram whose ciphertext is an encrypted plaintext is `DECODED` of it: the telegram is intact, and
decryption is the same function as encryption (R150, R166). -/
theorem Telegram.fits.dispatchEvent_frame {c : Cfg} {tg : Telegram} {pt : Bytes} (hvalid : cfgValid c) (h : tg.fits c)
    (hcipher : ctrXor c.key tg.nonce 2 pt = .result tg.ciphertext) : dispatchEvent c tg.frame = .decoded pt := by
  have hlen := h.length_frame
  obtain ⟨-, stitle, -, scounter, -, scipher⟩ := h.slice_fields
  have hnonce : frameNonce c tg.frame = tg.nonce := by rw [frameNonce, stitle, scounter, Telegram.nonce]
  have hciphertext : frameCiphertext c tg.frame = tg.ciphertext := by rw [frameCiphertext, hlen, scipher]
  have hevent := dispatch_eq_dispatchEvent hvalid hlen
  obtain ⟨hst, hic, hct, hmin, -, hkey⟩ := hvalid
  have hverify : verifyFrame tg.frame = .result true := verifyFrame_eq_true_iff.mpr ⟨by omega, tg.intact_frame⟩
  have hplain : decryptFrame c tg.frame c.key = .result pt := by
    rw [decryptFrame_eq hkey (by omega), hnonce, hciphertext]
    exact ctrXor_of_ctrXor hcipher
  rw [dispatch_of_decrypted hverify hplain] at hevent
  exact (Except.ok.inj hevent).symm

/-- Settles O46: the telegram begins with the start pair, and the event of its dispatch is
`Telegram.fits.dispatchEvent_frame`. -/
theorem telegramIsDecodedEndToEnd : Obligations.TelegramIsDecodedEndToEnd := by
  unfold Obligations.TelegramIsDecodedEndToEnd
  intro s tg pt hvalid hkept hm hfits hcipher
  have hrun := execAll_feed_telegram ⟨hvalid, hkept⟩ hm hfits.length_body tg.endFlag
  rw [← Telegram.frame_eq, hfits.dispatchEvent_frame hvalid hcipher] at hrun
  exact ⟨hrun, feedOutcome_of_one_event hrun rfl⟩

/-! ### `RXP` (R200) -/

/-- Any outcome of an `RX` but `DECODED` is that of the `RXP` (R200). -/
theorem rxpOutcome_of_ne_decoded {o : OpOutcome} (h : ∀ pt, o ≠ .event (.decoded pt)) (profile : Profile) (off : Int) :
    rxpOutcome profile off o = o := by
  unfold rxpOutcome
  split
  case h_1 pt => exact absurd rfl (h pt)
  case h_2 => rfl

theorem rxpOutcome_of_result {pt : Bytes} {profile : Profile} {off : Int} {r : Reading}
    (h : pdecode pt profile off = .result r) : rxpOutcome profile off (.event (.decoded pt)) = .event (.reading r) := by
  simp only [rxpOutcome, h]

theorem rxpOutcome_of_raise {pt : Bytes} {profile : Profile} {off : Int} {k : Failure}
    (h : pdecode pt profile off = .raise k) : rxpOutcome profile off (.event (.decoded pt)) = .event (.fail k) := by
  simp only [rxpOutcome, h]

/-- Settles O53: `RXP` is the state of the `RX` with the outcome of `rxpOutcome` recorded, one lemma for each case of R200. -/
theorem rxpComposesRxAndPdecode : Obligations.RxpComposesRxAndPdecode := by
  unfold Obligations.RxpComposesRxAndPdecode
  intro b off s
  obtain ⟨htrace, -⟩ := rx_frame b s
  refine ⟨_, (rx b s).2, exec_rx b s, by rw [State.answer_trace, htrace], fun pt r ho hr => ?reading,
    fun pt k ho hk => ?failed, fun ho => ?other⟩
  case reading => rw [execRxp, ho, rxpOutcome_of_result hr, ← htrace]; rfl
  case failed => rw [execRxp, ho, rxpOutcome_of_raise hk, ← htrace]; rfl
  case other => rw [execRxp, rxpOutcome_of_ne_decoded ho]

/-- Settles O54: all bytes but the last are collected; the `RX` inside the `RXP` has the event `DECODED` of the plaintext, of
which `pdecode` makes the Reading of the table of WN. -/
theorem telegramYieldsItsReading : Obligations.TelegramYieldsItsReading := by
  unfold Obligations.TelegramYieldsItsReading
  intro s tg pt off hvalid hkept hm hfits hprofile hlen hcipher
  have hbody := hfits.length_body
  have hheld : (0x7e :: 0xa0 :: tg.body).length + 1 = s.cfg.frameLen := hbody
  have hdrop : tg.frame.dropLast = 0x7e :: 0xa0 :: tg.body := by
    rw [Telegram.frame_eq]; exact List.dropLast_concat (l₁ := 0x7e :: 0xa0 :: tg.body)
  have hreading : pdecode pt .wn off = .result (readingOf tableWn off pt) := pdecode_of_le (t := tableWn) rfl hlen off
  have hrx : rx tg.endFlag (s.collected (0x7e :: 0xa0 :: tg.body)) =
      (s.afterTelegram (s.cfg.frameLen - 1) tg.endFlag, .event (.decoded pt)) := by
    rw [rx_collected ⟨hvalid, hkept⟩ hm hheld, ← hheld, Nat.add_sub_cancel, ← hfits.dispatchEvent_frame hvalid hcipher]
    rfl
  rw [hdrop]
  refine ⟨_, _, execAll_feed_collected ⟨hvalid, hkept⟩ hm (by omega), hreading, rfl, ?_⟩
  rw [execRxp, hrx, show (s.collected (0x7e :: 0xa0 :: tg.body)).cfg.profile = .wn from hprofile,
    rxpOutcome_of_result hreading]
  rfl

end Sys2Proof.Machine
end

section
/-! PROOFS. The CRC: its equivalent forms (40_crc.md, R101), error detection and the residue (R102). -/

namespace Sys2Proof.Machine

open Sys2Proof

/-- Settles O19: the byte step is the folded byte step by `crcByteStep_eq`. -/
theorem crcFoldedFormAgrees : Obligations.CrcFoldedFormAgrees := by
  unfold Obligations.CrcFoldedFormAgrees
  intro data
  rw [calcCrc16, funext₂ crcByteStep_eq]

/-- `CRC16` records the CRC and writes nothing else (R97). -/
theorem exec_crc16 (data : Bytes) (s : State) : exec (.crc16 data) s = .next (s.answer (.value (.word (calcCrc16 data)))) :=
  rfl

/-- Settles O13: `exec_crc16` names the outcome; the corner cases and the example of R97 are evaluated. -/
theorem crc16ReturnsTheCrc : Obligations.Crc16ReturnsTheCrc := by
  unfold Obligations.Crc16ReturnsTheCrc
  refine ⟨exec_crc16, ?_⟩
  decide +kernel

/-! ### The bits of the final step (R95) -/

/-- The complement of the register, as the final step computes it (R95). -/
theorem ffff_sub_eq_not (crc : U16) : 0xFFFF - crc = ~~~crc := BitVec.allOnes_sub_eq_not crc

/-- A high and a low byte, put together by arithmetic, are the bits of the one before those of the other. -/
theorem highByte_add_lowByte (hi lo : Byte) : ((256 : Nat) : U16) * hi.setWidth 16 + lo.setWidth 16 = hi ++ lo := by
  apply BitVec.eq_of_toNat_eq
  rw [toNat_highByte_add_lowByte, BitVec.toNat_append, ← Nat.shiftLeft_add_eq_or_of_lt lo.isLt, Nat.shiftLeft_eq,
    Nat.mul_comm]

/-- The final step is the complement with each byte mirrored in its place (R95). -/
theorem crcFinal_eq_append (crc : U16) :
    crcFinal crc = byteMirror (((~~~crc) >>> 8).setWidth 8) ++ byteMirror ((~~~crc).setWidth 8) := by
  rw [crcFinal, ffff_sub_eq_not]
  exact highByte_add_lowByte _ _

/-- Bit `i` of the final value is a complemented bit of the register: bits 0 to 7 in reverse order, and bits 8 to 15. -/
theorem getLsbD_crcFinal (crc : U16) {i : Nat} (hi : i < 16) :
    (crcFinal crc).getLsbD i = !crc.getLsbD (if i < 8 then 7 - i else 23 - i) := by
  rw [crcFinal_eq_append, BitVec.getLsbD_append]
  split
  case isTrue hlow =>
    rw [byteMirror_bit _ _ hlow, BitVec.getLsbD_setWidth, BitVec.getLsbD_not, decide_eq_true (by omega),
      decide_eq_true (by omega), Bool.true_and, Bool.true_and]
  case isFalse hhigh =>
    rw [byteMirror_bit _ _ (by omega), BitVec.getLsbD_setWidth, BitVec.getLsbD_ushiftRight, BitVec.getLsbD_not,
      show 8 + (7 - (i - 8)) = 23 - i by omega, decide_eq_true (by omega), decide_eq_true (by omega), Bool.true_and,
      Bool.true_and]

/-- The final step loses no information about the register. -/
theorem crcFinal_injective : Function.Injective crcFinal := by
  intro a b h
  apply BitVec.eq_of_getLsbD_eq
  intro i hi
  have hbit {j : Nat} (hj : j < 16) (hji : (if j < 8 then 7 - j else 23 - j) = i) : a.getLsbD i = b.getLsbD i := by
    have := congrArg (BitVec.getLsbD · j) h
    simpa only [getLsbD_crcFinal _ hj, hji, Bool.not_inj_iff] using this
  rcases Nat.lt_or_ge i 8 with hlow | hhigh
  · exact hbit (j := 7 - i) (by omega) (by split <;> omega)
  · exact hbit (j := 23 - i) (by omega) (by split <;> omega)

/-! ### The reflected form (R101 (b)) -/

theorem reverse_xor {w : Nat} (x y : BitVec w) : (x ^^^ y).reverse = x.reverse ^^^ y.reverse := by
  apply BitVec.eq_of_getLsbD_eq
  intro i hi
  simp [BitVec.getLsbD_reverse]

theorem reverse_shiftLeft {w : Nat} (x : BitVec w) (n : Nat) : (x <<< n).reverse = x.reverse >>> n := by
  apply BitVec.eq_of_getLsbD_eq
  intro i hi
  simp [BitVec.getLsbD_reverse, Nat.add_comm]

/-- Bit 0 of a 16-bit value, as the mask of the reflected form tests it. -/
theorem and_one_ne_zero_iff (v : U16) : v &&& 1 ≠ 0 ↔ v.getLsbD 0 = true := by
  rw [show (1 : U16) = BitVec.twoPow 16 0 from rfl, BitVec.and_twoPow]
  cases v.getLsbD 0 <;> decide

/-- A right shift of the reversed register is a left shift of the register (R101 (b)). -/
theorem x25BitStep_reverse (v : U16) : x25BitStep v.reverse = (foldedBitStep v).reverse := by
  have htest : v.reverse.getLsbD 0 = v.getLsbD 15 := BitVec.getLsbD_reverse
  simp only [x25BitStep, foldedBitStep, and_one_ne_zero_iff, and_8000_ne_zero_iff, htest]
  split
  · rw [reverse_xor, reverse_shiftLeft]; rfl
  · rw [reverse_shiftLeft]

theorem x25BitStep_iterate_reverse (n : Nat) (v : U16) : x25BitStep^[n] v.reverse = (foldedBitStep^[n] v).reverse :=
  ((Function.Semiconj.iterate_right (f := BitVec.reverse) (fun v => (x25BitStep_reverse v).symm) n) v).symm

/-- The unmirrored byte at the low end is the reversed working value (R101 (b)). -/
theorem reverse_crcWorking : ∀ d : Byte, (crcWorking d).reverse = d.setWidth 16 := by decide +kernel

theorem x25ByteStep_reverse (crc : U16) (d : Byte) : x25ByteStep crc.reverse d = (crcByteStep crc d).reverse := by
  rw [x25ByteStep, crcByteStep_eq, foldedByteStep, ← reverse_crcWorking, ← reverse_xor, x25BitStep_iterate_reverse]

/-- The reflected register is the reversed register, after any data (R101 (b)). -/
theorem foldl_x25ByteStep_reverse (data : Bytes) (crc : U16) :
    data.foldl x25ByteStep crc.reverse = (data.foldl crcByteStep crc).reverse := by
  induction data generalizing crc with
  | nil => rfl
  | cons d ds ih => rw [List.foldl_cons, List.foldl_cons, x25ByteStep_reverse, ih]

theorem getLsbD_swapBytes (v : U16) {i : Nat} (hi : i < 16) :
    (swapBytes v).getLsbD i = v.getLsbD (if i < 8 then i + 8 else i - 8) := by
  rw [swapBytes, BitVec.getLsbD_or, BitVec.getLsbD_shiftLeft, BitVec.getLsbD_ushiftRight]
  split
  · simp [*, Nat.add_comm]
  · rw [BitVec.getLsbD_of_ge v (8 + i) (by omega)]; simp [*]

/-- The final step is the reversed and complemented register with its bytes exchanged (R101 (b)). -/
theorem crcFinal_eq_swapBytes (crc : U16) : crcFinal crc = swapBytes (crc.reverse ^^^ 0xFFFF) := by
  apply BitVec.eq_of_getLsbD_eq
  intro i hi
  have hbit {j : Nat} (hj : j < 16) : (crc.reverse ^^^ 0xFFFF).getLsbD j = !crc.getLsbD (15 - j) := by
    rw [show (0xFFFF : U16) = BitVec.allOnes 16 from rfl, BitVec.xor_allOnes, BitVec.getLsbD_not, BitVec.getLsbD_reverse,
      BitVec.getMsbD_eq_getLsbD, decide_eq_true hj, Bool.true_and, Bool.true_and]
  rw [getLsbD_crcFinal _ hi, getLsbD_swapBytes _ hi, hbit (by split <;> omega)]
  congr 2
  split <;> omega

/-- Settles O20: the reflected register is the reversed register, and the final step exchanges the bytes. -/
theorem crcIsX25WithSwappedBytes : Obligations.CrcIsX25WithSwappedBytes := by
  unfold Obligations.CrcIsX25WithSwappedBytes
  intro data
  have hinit : (0xFFFF : U16) = crcInit.reverse := by decide
  rw [calcCrc16, crcX25, crcFinal_eq_swapBytes, ← foldl_x25ByteStep_reverse, ← hinit]

/-! ### Error detection (R102) -/

/-- A byte is determined by its working value. -/
theorem crcWorking_injective : Function.Injective crcWorking := by
  intro d d' h
  have hmirror : byteMirror d = byteMirror d' := by
    have := congrArg BitVec.toNat h
    rw [toNat_crcWorking, toNat_crcWorking] at this
    exact BitVec.eq_of_toNat_eq (by omega)
  rw [← byteMirror_byteMirror d, hmirror, byteMirror_byteMirror]

/-- Different bytes lead to different registers. -/
theorem crcByteStep_byte_injective (crc : U16) : Function.Injective (crcByteStep crc) := by
  intro d d' h
  rw [crcByteStep_eq, crcByteStep_eq] at h
  exact crcWorking_injective ((BitVec.xor_right_inj crc).mp (foldedBitStep_injective.iterate 8 h))

/-- After the same bytes different registers are still different. -/
theorem foldl_crcByteStep_injective (data : Bytes) : Function.Injective fun crc => data.foldl crcByteStep crc := by
  induction data with
  | nil => exact fun _ _ h => h
  | cons d ds ih => exact ih.comp (crcByteStep_injective d)

/-- The CRCs of two strings that differ in one byte are different (R102). -/
theorem calcCrc16_ne_of_one_byte (before after : Bytes) {d d' : Byte} (h : d ≠ d') :
    calcCrc16 (before ++ d :: after) ≠ calcCrc16 (before ++ d' :: after) := by
  intro heq
  rw [calcCrc16_append, calcCrc16_append] at heq
  exact h (crcByteStep_byte_injective _ (foldl_crcByteStep_injective after (crcFinal_injective heq)))

theorem be16_toNat_injective {v v' : U16} (h : be16 v.toNat = be16 v'.toNat) : v = v' := by
  have := congrArg trailerValue h
  rw [trailerValue_be16, trailerValue_be16] at this
  exact BitVec.eq_of_toNat_eq this

/-- A buffer and its two trailer bytes verify exactly when the trailer is the CRC of the buffer, the more significant byte
first (R98, R102). -/
theorem verify_trailer (data : Bytes) (g0 g1 : Byte) :
    verify (data ++ [g0, g1]) 0 2 0 = .result (decide ([g0, g1] = be16 (calcCrc16 data).toNat)) := by
  have hiff : (calcCrc16 data).toNat = trailerValue [g0, g1] ↔ [g0, g1] = be16 (calcCrc16 data).toNat := by
    refine ⟨fun h => ?_, fun h => by rw [h, trailerValue_be16]⟩
    rw [← trailerValue_be16] at h
    obtain ⟨h0, h1⟩ := trailerValue_injective h
    rw [← h0, ← h1, be16]
  have hparts := verify_parts [] data [] g0 g1
  rwa [List.nil_append, List.append_nil, decide_eq_decide.mpr hiff] at hparts

/-- Settles O16, by `verify_trailer`. -/
theorem verifyRoundTrip : Obligations.VerifyRoundTrip := by
  unfold Obligations.VerifyRoundTrip
  refine fun data s => ⟨?own, fun g0 g1 hne => ?other⟩
  case own =>
    rw [exec_verify, be16, verify_trailer, ← be16, decide_eq_true rfl]
    rfl
  case other =>
    rw [exec_verify, verify_trailer, decide_eq_false hne]
    rfl

/-- Settles O17: the two CRCs differ, so the trailer is not that of the changed data. -/
theorem oneByteErrorIsDetected : Obligations.OneByteErrorIsDetected := by
  unfold Obligations.OneByteErrorIsDetected
  intro before after d d' hne
  have htrailer : be16 (calcCrc16 (before ++ d :: after)).toNat ≠ be16 (calcCrc16 (before ++ d' :: after)).toNat :=
    fun h => calcCrc16_ne_of_one_byte before after hne (be16_toNat_injective h)
  exact (verify_trailer _ _ _).trans (congrArg _ (decide_eq_false htrailer))

/-! ### The residue (R102) -/

/-- A shift of the folded register, the polynomial apart. -/
theorem foldedBitStep_eq (v : U16) : foldedBitStep v = v <<< 1 ^^^ bif v.getLsbD 15 then crcPoly else 0 := by
  rw [foldedBitStep]
  simp only [and_8000_ne_zero_iff]
  cases v.getLsbD 15
  · exact BitVec.xor_zero.symm
  · rfl

/-- A shift of the folded register is linear. -/
theorem foldedBitStep_xor (x y : U16) : foldedBitStep (x ^^^ y) = foldedBitStep x ^^^ foldedBitStep y := by
  have hpoly (a b : Bool) : (bif a ^^ b then crcPoly else 0) = (bif a then crcPoly else 0) ^^^ bif b then crcPoly else 0 := by
    revert a b; decide
  rw [foldedBitStep_eq, foldedBitStep_eq, foldedBitStep_eq, BitVec.getLsbD_xor, hpoly, BitVec.shiftLeft_xor_distrib]
  ac_rfl

theorem foldedBitStep_iterate_xor (n : Nat) (x y : U16) :
    foldedBitStep^[n] (x ^^^ y) = foldedBitStep^[n] x ^^^ foldedBitStep^[n] y := by
  induction n generalizing x y with
  | zero => rfl
  | succ n ih => rw [Function.iterate_succ_apply, foldedBitStep_xor, ih]; rfl

/-- Eight shifts move a low byte into the high byte. -/
theorem foldedBitStep_lowByte : ∀ b : Byte, foldedBitStep^[8] (b.setWidth 16) = b.setWidth 16 <<< 8 := by decide +kernel

/-- Two byte steps are sixteen shifts of the register XORed with both mirrored bytes. -/
theorem crcByteStep_crcByteStep (crc : U16) (d0 d1 : Byte) : crcByteStep (crcByteStep crc d0) d1 =
    foldedBitStep^[16] (crc ^^^ (crcWorking d0 ^^^ (byteMirror d1).setWidth 16)) := by
  rw [crcByteStep_eq, crcByteStep_eq, foldedByteStep, foldedByteStep, crcWorking.eq_def d1, ← foldedBitStep_lowByte,
    ← foldedBitStep_iterate_xor, ← Function.iterate_add_apply, BitVec.xor_assoc]

/-- A 16-bit value in its two bytes. -/
theorem highByte_xor_lowByte (v : U16) :
    ((v >>> 8).setWidth 8).setWidth 16 <<< 8 ^^^ (v.setWidth 8).setWidth 16 = v := by
  apply BitVec.eq_of_getLsbD_eq
  intro i hi
  rcases Nat.lt_or_ge i 8 with hlow | hhigh
  · simp [hi, hlow]
  · simp [hi, show ¬i < 8 by omega, show i - 8 < 8 by omega, show 8 + (i - 8) = i by omega]

/-- `be16` of a 16-bit value is its two bytes. -/
theorem be16_append (hi lo : Byte) : be16 (hi ++ lo : U16).toNat = [hi, lo] := by
  have htrailer : trailerValue (be16 (hi ++ lo : U16).toNat) = trailerValue [hi, lo] := by
    rw [trailerValue_be16, ← highByte_add_lowByte, toNat_highByte_add_lowByte, Nat.mul_comm]
    rfl
  obtain ⟨h0, h1⟩ := trailerValue_injective htrailer
  rw [be16, h0, h1]

/-- The two bytes of a CRC lead any register to the same one: they XOR it to `0xFFFF` (R102). -/
theorem foldl_crcByteStep_own (crc : U16) :
    (be16 (crcFinal crc).toNat).foldl crcByteStep crc = foldedBitStep^[16] 0xFFFF := by
  rw [crcFinal_eq_append, be16_append, List.foldl_cons, List.foldl_cons, List.foldl_nil, crcByteStep_crcByteStep,
    crcWorking, byteMirror_byteMirror, byteMirror_byteMirror, highByte_xor_lowByte, BitVec.not_def,
    BitVec.xor_comm (BitVec.allOnes 16), ← BitVec.xor_assoc, BitVec.xor_self, BitVec.zero_xor]
  rfl

/-- Settles O18: the register after the two bytes of the CRC is the same for all data. -/
theorem crcResidueIsConstant : Obligations.CrcResidueIsConstant := by
  unfold Obligations.CrcResidueIsConstant
  intro data
  have hresidue : crcFinal (foldedBitStep^[16] 0xFFFF) = 0x470f := by decide +kernel
  rw [calcCrc16_append, calcCrc16, foldl_crcByteStep_own, hresidue]

end Sys2Proof.Machine
end

section
/-! PROOFS. The cipher: its rounds, and the published examples (41_aes_cipher.md, R122). -/

namespace Sys2Proof.Machine

open Sys2Proof

/-- The state after round `r`, the rounds being all middle rounds: round 0 adds the first round key (R122). -/
def roundState (w : List Word4) (block : Bytes) : Nat → AesState
  | 0 => (AesState.load block).addRoundKey w 0
  | r + 1 => (roundState w block r).round w (r + 1)

/-- `n` middle rounds lead from the state after round `r` to the state after round `r + n` (R122). -/
theorem middleRounds_roundState (w : List Word4) (block : Bytes) (n r : Nat) :
    AesState.middleRounds w n (r + 1) (roundState w block r) = roundState w block (r + n) := by
  induction n generalizing r with
  | zero => rfl
  | succ n ih => rw [AesState.middleRounds, ← roundState, ih, Nat.add_right_comm, Nat.add_assoc]

/-- The cipher is the last round, without `MixColumns`, on the state after round `nr - 1` (R122). -/
theorem aesWith_eq_roundState (w : List Word4) (nr : Nat) (block : Bytes) : aesWith w nr block =
    ((roundState w block (nr - 1)).subBytes.shiftRows.addRoundKey w nr).store := by
  have hmiddle := middleRounds_roundState w block (nr - 1) 0
  rw [Nat.zero_add (nr - 1)] at hmiddle
  rw [← hmiddle]
  rfl

/-- The number of rounds of R115 for the three key lengths. -/
theorem rounds_of_mem {key : Bytes} {nr : Nat} (h : (key.length, nr) ∈ [(16, 10), (24, 12), (32, 14)]) :
    rounds key = nr := by
  have hcases : key.length = 16 ∧ nr = 10 ∨ key.length = 24 ∧ nr = 12 ∨ key.length = 32 ∧ nr = 14 := by simpa using h
  unfold rounds keyWords
  omega

/-- Settles O59 with the states of `roundState`, on the key's schedule. -/
theorem aesComposesItsRounds : Obligations.AesComposesItsRounds := by
  unfold Obligations.AesComposesItsRounds
  intro key block nr hkey _
  obtain rfl := rounds_of_mem hkey
  refine ⟨roundState (keyExpansion key) block, rfl, fun r hr _ => ?_, aesWith_eq_roundState _ _ _, ?_⟩
  · obtain ⟨r, rfl⟩ := Nat.exists_eq_add_of_le' hr
    rfl
  · rw [aes, aesWith_eq_roundState, AesState.length_store]

/-- Settles O21, by running the cipher on the three examples. -/
theorem aesPublishedExamples : Obligations.AesPublishedExamples := by
  unfold Obligations.AesPublishedExamples
  decide +kernel

end Sys2Proof.Machine
end
